-- ==== Sys2Proof/Word.lean ====
section
/-! DEFINITION. The machine's words (00_scope.md R9): a word is 32 bits, a half 16, a byte 8, bit 0 the least significant.
`+` and `-` on a `Word` are modulo 2^32; `signed(v)` of the spec is `BitVec.toInt`. -/

namespace Sys2Proof

/-- A register value, an address or an instruction word (R9). -/
abbrev Word := BitVec 32

/-- A 2-byte memory unit (R9). -/
abbrev Half := BitVec 16

/-- The addressable unit of memory (R9, R50). -/
abbrev Byte := BitVec 8

/-- A register field of an instruction: 5 bits, so it names x[0] to x[31] and nothing else (R23, R81). -/
abbrev Reg := BitVec 5

/-- The raw 16-bit immediate field (R81). -/
abbrev Imm16 := BitVec 16

/-- JAL's 26-bit index field (R87). -/
abbrev Index26 := BitVec 26

end Sys2Proof
end

