-- ==== Sys2Proof/Syntax.lean ====
section
/-! DEFINITION. The 29 instructions of the machine (30_encoding.md R89), one constructor per row of spec/opcode_table.json,
with the fields the instruction uses (R85) in the order of the spec's assembler (R96). The bits an instruction ignores
are not part of it: two words that differ only in them are the same instruction (R82, R85). -/

namespace Sys2Proof

/-- An instruction. An unrecognized word is none of these (R92): the decoder rejects it and the step runs it as a no-op. -/
inductive Instr where
  -- logical, 41_logical.md
  | and (rd rs rt : Reg)
  | or (rd rs rt : Reg)
  | xor (rd rs rt : Reg)
  | nor (rd rs rt : Reg)
  | andi (rt rs : Reg) (imm : Imm16)
  | ori (rt rs : Reg) (imm : Imm16)
  | xori (rt rs : Reg) (imm : Imm16)
  -- comparison, 42_compare.md
  | slt (rd rs rt : Reg)
  | slti (rt rs : Reg) (imm : Imm16)
  | sltiu (rt rs : Reg) (imm : Imm16)
  -- arithmetic, 43_arithmetic.md
  | add (rd rs rt : Reg)
  | addi (rt rs : Reg) (imm : Imm16)
  | addu (rd rs rt : Reg)
  | addiu (rt rs : Reg) (imm : Imm16)
  | sub (rd rs rt : Reg)
  | subu (rd rs rt : Reg)
  -- bit count, load upper, conditional move, 44_bitcount_lui_move.md
  | clz (rd rs : Reg)
  | clo (rd rs : Reg)
  | lui (rt : Reg) (imm : Imm16)
  | movz (rd rs rt : Reg)
  | movn (rd rs rt : Reg)
  -- control transfer, 45_control_transfer.md
  | jr (rs : Reg)
  | jal (idx : Index26)
  | bgtz (rs : Reg) (imm : Imm16)
  -- load and store, 46_load_store.md
  | lb (rt rs : Reg) (imm : Imm16)
  | lh (rt rs : Reg) (imm : Imm16)
  | lw (rt rs : Reg) (imm : Imm16)
  | sw (rt rs : Reg) (imm : Imm16)
  -- system, 47_system_and_unrecognized.md
  | syscall
deriving DecidableEq, Repr

/-- The sequencer's classes (40_step_cycle.md R114): the *delayed transfers* run a nested delay-slot step. -/
def Instr.isDelayedTransfer : Instr → Bool
  | .jal _ | .bgtz _ _ => true
  | _ => false

/-- The control-transfer instructions, the ones that may not stand in a delay slot (R121, R165). -/
def Instr.isTransfer : Instr → Bool
  | .jr _ | .jal _ | .bgtz _ _ => true
  | _ => false

end Sys2Proof
end

