-- ==== Sys2Proof/WellFormed.lean ====
section
/-! DEFINITION. Well-formedness. A single `Instr` is well formed by its type: its register fields are 5 bits, its immediate
16, its index 26 (30_encoding.md R81), so every value of a field is one the encoding admits. What can be ill-formed is a
SEQUENCE of instruction words, and the machine itself does not say so: "a model's well-formedness check on a program
should say which words of it are unrecognized, since the machine will not" (70_reset_and_hazards.md R247), and no
control transfer may stand in a delay slot (R244). -/

namespace Sys2Proof

/-- A straight listing of decoded words: `none` is an unrecognized word (R92). -/
abbrev Listing := List (Option Instr)

/-- What is wrong with a listing, by the index of the word. -/
inductive Defect where
  /-- an unrecognized word: a silent no-op at run time (R247) -/
  | unrecognized (index : Nat)
  /-- a JR, JAL or BGTZ in the slot of a JAL or BGTZ: the step is refused (R121, R244) -/
  | transferInSlot (index : Nat)
  /-- a JAL or BGTZ as the last word: its slot lies outside the listing (R242) -/
  | slotMissing (index : Nat)
deriving DecidableEq, Repr

def entryDelays (e : Option Instr) : Bool := e.any Instr.isDelayedTransfer

def entryTransfers (e : Option Instr) : Bool := e.any Instr.isTransfer

/-- Whether the word itself is a defect, at index `n`. -/
def wordDefects (n : Nat) (e : Option Instr) : List Defect :=
  if e.isNone then [.unrecognized n] else []

/-- Whether the word and the one after it are a defect together, at index `n` of the first. -/
def slotDefects (n : Nat) (e : Option Instr) (rest : Listing) : List Defect :=
  if entryDelays e then
    match rest with
    | [] => [.slotMissing n]
    | slot :: _ => if entryTransfers slot then [.transferInSlot (n + 1)] else []
  else []

/-- Every defect of a listing whose first word has index `n`, in order. -/
def defectsFrom (n : Nat) : Listing → List Defect
  | [] => []
  | e :: rest => wordDefects n e ++ slotDefects n e rest ++ defectsFrom (n + 1) rest

/-- A listing with no defect: every word is one of the 29 instructions and every delay slot holds an ordinary one. -/
def Listing.wellFormed (l : Listing) : Bool := (defectsFrom 0 l).isEmpty

end Sys2Proof
end

