-- ==== Sys2Proof/Decode.lean ====
section
/-! DEFINITION. Decoding and encoding (30_encoding.md). The decoder splits a word into the fields of R81, and selects by
(opcode) or (opcode, function) alone (R84); a word that selects nothing is rejected by name (R92: the step then runs it
as a no-op). Field positions and every number but 0 and 0x1C are PRESUMED (the MIPS32 encoding: D1, D2, log 8 and 9). -/

namespace Sys2Proof

/-! ### Byte order (20_memory.md R51) -/

/-- The unsigned number of a sequence of bytes, the first the least significant. -/
def leNat : List Byte → Nat
  | [] => 0
  | b :: bs => b.toNat + 256 * leNat bs

/-- The low `n` bytes of a number, the least significant first. -/
def leBytes : Nat → Nat → List Byte
  | 0, _ => []
  | n + 1, v => BitVec.ofNat 8 v :: leBytes n (v / 256)

/-! ### The fields of a word (R81; positions PRESUMED, D2) -/

def opcodeOf (w : Word) : BitVec 6 := w.extractLsb' 26 6
def rsOf (w : Word) : Reg := w.extractLsb' 21 5
def rtOf (w : Word) : Reg := w.extractLsb' 16 5
def rdOf (w : Word) : Reg := w.extractLsb' 11 5
def functOf (w : Word) : BitVec 6 := w.extractLsb' 0 6
def immOf (w : Word) : Imm16 := w.extractLsb' 0 16

/-- The two opcodes that select by function code: SPECIAL and SPECIAL2 (R84). -/
def isSpecial (op : BitVec 6) : Bool := op == 0x00#6 || op == 0x1C#6

/-- What the descriptor carries of the low 16 bits (R81, R82): rd and the function code under SPECIAL and SPECIAL2, the
raw immediate otherwise. -/
inductive LowHalf where
  | register (rd : Reg) (funct : BitVec 6)
  | immediate (imm : Imm16)
deriving DecidableEq, Repr

/-- The DecodedInstruction (R81). It drops bits w[10:6] of a SPECIAL or SPECIAL2 word. -/
structure Descriptor where
  opcode : BitVec 6
  rs : Reg
  rt : Reg
  low : LowHalf
deriving DecidableEq, Repr

/-- `decode(w)` of R82: total, and never fails. -/
def describe (w : Word) : Descriptor where
  opcode := opcodeOf w
  rs := rsOf w
  rt := rtOf w
  low := if isSpecial (opcodeOf w) then .register (rdOf w) (functOf w) else .immediate (immOf w)

/-! ### The configuration table OPC, FN (R8, R90; numbers PRESUMED, D1) -/

/-- `OPC(m)`: the primary opcode of an instruction. -/
def opc : Instr → BitVec 6
  | .jr _ => 0x00
  | .movz _ _ _ => 0x00
  | .movn _ _ _ => 0x00
  | .syscall => 0x00
  | .add _ _ _ => 0x00
  | .addu _ _ _ => 0x00
  | .sub _ _ _ => 0x00
  | .subu _ _ _ => 0x00
  | .and _ _ _ => 0x00
  | .or _ _ _ => 0x00
  | .xor _ _ _ => 0x00
  | .nor _ _ _ => 0x00
  | .slt _ _ _ => 0x00
  | .clz _ _ => 0x1C
  | .clo _ _ => 0x1C
  | .jal _ => 0x03
  | .bgtz _ _ => 0x07
  | .addi _ _ _ => 0x08
  | .addiu _ _ _ => 0x09
  | .slti _ _ _ => 0x0A
  | .sltiu _ _ _ => 0x0B
  | .andi _ _ _ => 0x0C
  | .ori _ _ _ => 0x0D
  | .xori _ _ _ => 0x0E
  | .lui _ _ => 0x0F
  | .lb _ _ _ => 0x20
  | .lh _ _ _ => 0x21
  | .lw _ _ _ => 0x23
  | .sw _ _ _ => 0x2B

/-- `FN(m)`: the function code, for the instructions under SPECIAL and SPECIAL2. -/
def fn : Instr → Option (BitVec 6)
  | .jr _ => some 0x08
  | .movz _ _ _ => some 0x0A
  | .movn _ _ _ => some 0x0B
  | .syscall => some 0x0C
  | .add _ _ _ => some 0x20
  | .addu _ _ _ => some 0x21
  | .sub _ _ _ => some 0x22
  | .subu _ _ _ => some 0x23
  | .and _ _ _ => some 0x24
  | .or _ _ _ => some 0x25
  | .xor _ _ _ => some 0x26
  | .nor _ _ _ => some 0x27
  | .slt _ _ _ => some 0x2A
  | .clz _ _ => some 0x20
  | .clo _ _ => some 0x21
  | .jal _ => none
  | .bgtz _ _ => none
  | .addi _ _ _ => none
  | .addiu _ _ _ => none
  | .slti _ _ _ => none
  | .sltiu _ _ _ => none
  | .andi _ _ _ => none
  | .ori _ _ _ => none
  | .xori _ _ _ => none
  | .lui _ _ => none
  | .lb _ _ _ => none
  | .lh _ _ _ => none
  | .lw _ _ _ => none
  | .sw _ _ _ => none

/-! ### Dispatch (R84) -/

/-- The instructions whose descriptor carries rd and a function code, with the fields of the word in their places
(R85, R88). CLZ and CLO read rs and write rd: PRESUMED (D4, log 10). -/
def registerForms (rs rt rd : Reg) : List Instr :=
  [.jr rs, .movz rd rs rt, .movn rd rs rt, .syscall, .add rd rs rt, .addu rd rs rt, .sub rd rs rt, .subu rd rs rt,
   .and rd rs rt, .or rd rs rt, .xor rd rs rt, .nor rd rs rt, .slt rd rs rt, .clz rd rs, .clo rd rs]

/-- JAL's index, rebuilt from the descriptor as rs ∥ rt ∥ imm = w[25:0] (R87): PRESUMED (D3, log 9). -/
def jalIndex (rs rt : Reg) (imm : Imm16) : Index26 := rs ++ rt ++ imm

/-- The instructions whose descriptor carries the raw immediate (R85, R88). -/
def immediateForms (rs rt : Reg) (imm : Imm16) : List Instr :=
  [.jal (jalIndex rs rt imm), .bgtz rs imm, .addi rt rs imm, .addiu rt rs imm, .slti rt rs imm, .sltiu rt rs imm,
   .andi rt rs imm, .ori rt rs imm, .xori rt rs imm, .lui rt imm, .lb rt rs imm, .lh rt rs imm, .lw rt rs imm,
   .sw rt rs imm]

/-- Why a word or a byte sequence is no instruction. -/
inductive Unrecognized where
  /-- a primary opcode that selects nothing (R91) -/
  | opcode (op : BitVec 6)
  /-- a function code that selects nothing under SPECIAL or SPECIAL2 (R91) -/
  | function (op : BitVec 6) (funct : BitVec 6)
  /-- fewer than the four bytes of an instruction word -/
  | truncated
deriving DecidableEq, Repr

/-- `sel(d)` of 40_step_cycle.md R114: the one instruction whose opcode, or opcode and function code, the descriptor
holds. Nothing else takes part in the selection (R84). -/
def select (d : Descriptor) : Except Unrecognized Instr :=
  match d.low with
  | .register rd f =>
    match (registerForms d.rs d.rt rd).find? (fun i => opc i == d.opcode && fn i == some f) with
    | some i => .ok i
    | none => .error (.function d.opcode f)
  | .immediate imm =>
    match (immediateForms d.rs d.rt imm).find? (fun i => opc i == d.opcode) with
    | some i => .ok i
    | none => .error (.opcode d.opcode)

/-- The instruction a word is, or the name of its rejection. -/
def decode (w : Word) : Except Unrecognized Instr := select (describe w)

/-- Decoding of any byte sequence: the instruction of its first four bytes, little-endian (R80), and the bytes after. -/
def decodeBytes : List Byte → Except Unrecognized (Instr × List Byte)
  | b0 :: b1 :: b2 :: b3 :: rest =>
    match decode (BitVec.ofNat 32 (leNat [b0, b1, b2, b3])) with
    | .ok i => .ok (i, rest)
    | .error e => .error e
  | _ => .error .truncated

/-- The bytes of the instruction whose bits spec/opcode_table.json numbers `w`: one 32-bit word, little-endian. -/
def tableBytes (nbits w : Nat) : List Byte := leBytes 4 (w % 2 ^ nbits)

/-- What the decoder reads from an instruction whose bits are `w`, numbered as spec/opcode_table.json numbers them. -/
def decodeTableWord (nbits w : Nat) : Option Instr :=
  match decodeBytes (tableBytes nbits w) with
  | .ok (i, _) => some i
  | .error _ => none

/-! ### The encoder (R83, R96): an ignored field is 0, but for CLZ and CLO, whose rt repeats rd (log 28) -/

/-- The R format: opcode, rs, rt, rd, five ignored bits, funct (R83). -/
def rWord (op : BitVec 6) (rs rt rd : Reg) (sh : BitVec 5) (f : BitVec 6) : Word := op ++ rs ++ rt ++ rd ++ sh ++ f

/-- The I format: opcode, rs, rt, imm (R83). -/
def iWord (op : BitVec 6) (rs rt : Reg) (imm : Imm16) : Word := op ++ rs ++ rt ++ imm

/-- The J format: opcode, idx (R83). -/
def jWord (op : BitVec 6) (idx : Index26) : Word := op ++ idx

/-- An R-format word of instruction `i` with its opcode and function code and five zero bits. -/
def encodeR (i : Instr) (rs rt rd : Reg) : Word := rWord (opc i) rs rt rd 0 ((fn i).getD 0)

/-- The word of an instruction. -/
def encode (i : Instr) : Word :=
  match i with
  | .and rd rs rt => encodeR i rs rt rd
  | .or rd rs rt => encodeR i rs rt rd
  | .xor rd rs rt => encodeR i rs rt rd
  | .nor rd rs rt => encodeR i rs rt rd
  | .andi rt rs imm => iWord (opc i) rs rt imm
  | .ori rt rs imm => iWord (opc i) rs rt imm
  | .xori rt rs imm => iWord (opc i) rs rt imm
  | .slt rd rs rt => encodeR i rs rt rd
  | .slti rt rs imm => iWord (opc i) rs rt imm
  | .sltiu rt rs imm => iWord (opc i) rs rt imm
  | .add rd rs rt => encodeR i rs rt rd
  | .addi rt rs imm => iWord (opc i) rs rt imm
  | .addu rd rs rt => encodeR i rs rt rd
  | .addiu rt rs imm => iWord (opc i) rs rt imm
  | .sub rd rs rt => encodeR i rs rt rd
  | .subu rd rs rt => encodeR i rs rt rd
  | .clz rd rs => encodeR i rs rd rd
  | .clo rd rs => encodeR i rs rd rd
  | .lui rt imm => iWord (opc i) 0 rt imm
  | .movz rd rs rt => encodeR i rs rt rd
  | .movn rd rs rt => encodeR i rs rt rd
  | .jr rs => encodeR i rs 0 0
  | .jal idx => jWord (opc i) idx
  | .bgtz rs imm => iWord (opc i) rs 0 imm
  | .lb rt rs imm => iWord (opc i) rs rt imm
  | .lh rt rs imm => iWord (opc i) rs rt imm
  | .lw rt rs imm => iWord (opc i) rs rt imm
  | .sw rt rs imm => iWord (opc i) rs rt imm
  | .syscall => encodeR i 0 0 0

/-- The bytes of an instruction as memory holds them (20_memory.md R68). -/
def encodeBytes (i : Instr) : List Byte := leBytes 4 (encode i).toNat

/-! ### The masks and match values of R90, for the words themselves -/

/-- `mask` of R90: the bits of a word that select the instruction. -/
def selectorMask (i : Instr) : Word := if (fn i).isSome then 0xFC00003F#32 else 0xFC000000#32

/-- `match` of R90: the value those bits have. -/
def selectorBits (i : Instr) : Word := rWord (opc i) 0 0 0 0 ((fn i).getD 0)

/-- A listing of a sequence of words, for the check of WellFormed.lean. -/
def listing (ws : List Word) : Listing := ws.map fun w => (decode w).toOption

end Sys2Proof
end

