-- ==== Sys2Proof/Config.lean ====
section
/-! DEFINITION. What the spec's parameters (00_scope.md R8) range over, and the descriptor of a fault, which the parameter
`cause_code` is a function of. The values chosen for them stand in Sys2Proof/Machine/Params.lean. -/

namespace Sys2Proof.Config

/-- `BITCOUNT` (R8, D5): what CLZ and CLO count. -/
inductive BitCount where
  /-- the behaviour the source describes: CLZ counts one bits, CLO zero bits -/
  | population
  /-- the conventional meaning of the mnemonics -/
  | leading
deriving DecidableEq, Repr

/-- `JAL_COMBINE` (R8, D6): how JAL joins the region bits and the shifted index. -/
inductive JalCombine where
  | or
  /-- the operator the source reports as observed and calls a defect -/
  | and
deriving DecidableEq, Repr

/-- `BGTZ_COND` (R8, D7): BGTZ's taken condition. -/
inductive BgtzCond where
  | signedGtZero
  /-- the condition the source reports as observed and calls a likely defect -/
  | nonzero
deriving DecidableEq, Repr

/-- `BRANCH_BASE_OFFSET` (R8, D10), whose only values are 0 and 4. -/
inductive BranchBase where
  /-- 0: the offset counts from the BGTZ's own address -/
  | ownAddress
  /-- 4: the offset counts from the delay slot's address -/
  | slotAddress
deriving DecidableEq, Repr

end Sys2Proof.Config

namespace Sys2Proof.Machine

/-- Whether a misaligned access was a load or a store (`is_store`, R202). -/
inductive Access where
  | load
  | store
deriving DecidableEq, Repr

/-- The fault descriptor `signal` takes (R202): the two fault kinds of R201, with the address and the access where they
have a meaning, that is for an alignment fault. -/
inductive FaultKind where
  | alignment (addr : Word) (access : Access)
  | overflow
deriving DecidableEq, Repr

end Sys2Proof.Machine
end

