-- ==== Sys2Proof/Machine/Params.lean ====
section
/-! DEFINITION. The values of the spec's parameters (00_scope.md R8). The spec's "decided" column is taken for each; where
that column is OPEN, the value it suggests. Each one is an assumption of the model, marked below. -/

namespace Sys2Proof.Config

open Sys2Proof.Machine (FaultKind)

/-- `TEXT_BASE`, the PC after reset: OPEN in the spec, the suggested value PRESUMED (D18, log 1). A multiple of 4. -/
def textBase : Word := 0x00400000#32

/-- `STACK_INIT`, x[29] after reset: OPEN in the spec, the suggested value PRESUMED (D18, log 2). -/
def stackInit : Word := 0x7FFFFFFC#32

/-- `DATA_BASE`, the base of the data segment: OPEN in the spec, the suggested value PRESUMED (D18, log 3). -/
def dataBase : Word := 0x10010000#32

/-- `HI_INIT`: DESIGN CHOICE of the spec (D19, log 4). -/
def hiInit : Word := 0#32

/-- `LO_INIT`: DESIGN CHOICE of the spec (D19, log 4). -/
def loInit : Word := 0#32

/-- The four fault registers at power-on: DESIGN CHOICE of the spec (D20, log 5). -/
def faultInit : Word := 0#32

/-- What a byte of memory reads as that nothing has written: DESIGN CHOICE of the spec (D17, log 6). -/
def unlistedByte : Byte := 0#8

/-- `BITCOUNT`: the source's explicit instruction (D5, log 11). -/
def bitCount : BitCount := .population

/-- `JAL_COMBINE`: DESIGN CHOICE of the spec (D6, log 12). -/
def jalCombine : JalCombine := .or

/-- `BGTZ_COND`: DESIGN CHOICE of the spec (D7, log 14). -/
def bgtzCond : BgtzCond := .signedGtZero

/-- `BRANCH_BASE_OFFSET`: DESIGN CHOICE of the spec (D10, log 17). -/
def branchBase : BranchBase := .ownAddress

/-- The number a branch base adds to the target (R8: 0 or 4). -/
def branchBaseOffset : BranchBase → Word
  | .ownAddress => 0#32
  | .slotAddress => 4#32

/-- `cause_code(kind, is_store)` (60_exceptions.md R206): three different values, PRESUMED (D22, log 23). -/
def causeCode : FaultKind → Word
  | .alignment _ .load => 0x00000010#32
  | .alignment _ .store => 0x00000014#32
  | .overflow => 0x00000030#32

end Sys2Proof.Config
end

