-- ==== Sys2Proof/Machine/State.lean ====
section
/-! DEFINITION. The machine's state (10_state.md), its power-on value, and the reasons a step can stop. -/

namespace Sys2Proof.Machine

/-- An event of a step (60_exceptions.md R209): what `signal` recorded, or a SYSCALL, with the address of the
instruction that emitted it. -/
inductive Event where
  | faultSignal (kind : FaultKind) (pc : Word)
  | syscall (pc : Word)
deriving DecidableEq, Repr

/-- Memory as (address, byte) pairs; the canonical form is `Memory.wf` of Ops.lean. -/
abbrev Memory := List Host.Cell

/-- Everything the spec gives the machine (10_state.md R20 to R33), and, last, the model's own field `events`. -/
structure State where
  /-- x[1] to x[31], at positions 0 to 30 (R20); x[0] is a constant and no storage (R21) -/
  regs : Vector Word 31
  /-- the program counter (R24) -/
  pc : Word
  /-- HI, a constant for the life of the engine (R27) -/
  hi : Word
  /-- LO, a constant for the life of the engine (R27) -/
  lo : Word
  /-- the faulting address (R30) -/
  badVAddr : Word
  /-- Status, which no rule reads and `signal` leaves alone (R30, 60_exceptions.md R204) -/
  status : Word
  /-- the cause (R30) -/
  cause : Word
  /-- the saved faulting PC (R30) -/
  epc : Word
  /-- the 2^32 bytes of memory (R31) -/
  mem : Memory
  /-- the model's own: the events of the most recent step, the `ok(events)` of 40_step_cycle.md R120 (log 7) -/
  events : List Event
deriving DecidableEq, Repr

/-- What stops the machine with a fault: nothing. A fault of this hardware is "a recorded abnormal condition ... that does
not itself halt or redirect execution" (60_exceptions.md R200), so it is a next state, and this type is empty (log 34). -/
inductive Fault : Type
deriving DecidableEq, Repr

/-- The steps the spec gives no outcome (40_step_cycle.md R120). Each is safe: the model stops and claims nothing. -/
inductive Refusal where
  /-- raised by `exec` for an instruction with no meaning yet (none is left); safe -/
  | notModelled (mnemonic : String)
  /-- raised by `step` when PC is not a multiple of 4 (40_step_cycle.md R111); safe -/
  | misalignedPC
  /-- raised by JAL and BGTZ when their slot holds JR, JAL or BGTZ (40_step_cycle.md R121); safe -/
  | transferInDelaySlot
deriving DecidableEq, Repr

/-- The outcome of a step or of one instruction. -/
abbrev Result := Host.Outcome State Fault Refusal

/-- The general registers after `reset()`: "zero all 32 general registers ... set register 29" (70_reset_and_hazards.md
R231). -/
def resetRegs : Vector Word 31 := (Vector.replicate 31 (0 : Word)).set 28 Config.stackInit

/-- The machine after power-on (70_reset_and_hazards.md R230; 10_state.md R36). -/
def State.reset : State where
  regs := resetRegs
  pc := Config.textBase
  hi := Config.hiInit
  lo := Config.loInit
  badVAddr := Config.faultInit
  status := Config.faultInit
  cause := Config.faultInit
  epc := Config.faultInit
  mem := []
  events := []

end Sys2Proof.Machine
end

