-- ==== Sys2Proof/Machine/Ops.lean ====
section
/-! DEFINITION. The named operations over memory, registers and the fault unit that every meaning is written with. -/

namespace Sys2Proof.Machine

/-! ### Memory (20_memory.md) -/

/-- The canonical form of a memory whose addresses are all at least `lo`: addresses strictly rising, all below 2^32, no
entry equal to what an unlisted address reads as. -/
def Memory.wfFrom (lo : Nat) : Memory → Bool
  | [] => true
  | (k, b) :: m => decide (lo ≤ k) && decide (k < 2 ^ 32) && decide (b ≠ Config.unlistedByte) && Memory.wfFrom (k + 1) m

/-- The canonical form: equal memories are equal lists. -/
def Memory.wf (m : Memory) : Bool := Memory.wfFrom 0 m

/-- The byte at address `a`. -/
def lookup : Memory → Nat → Byte
  | [], _ => Config.unlistedByte
  | (k, b) :: m, a => if a = k then b else lookup m a

/-- Puts an entry before a canonical memory of higher addresses, unless it says what an unlisted address reads as. -/
def consCell (a : Nat) (b : Byte) (m : Memory) : Memory := if b = Config.unlistedByte then m else (a, b) :: m

/-- The memory with byte `b` at address `a`, in canonical form. -/
def insertByte : Memory → Nat → Byte → Memory
  | [], a, b => consCell a b []
  | (k, c) :: m, a, b =>
    if a < k then consCell a b ((k, c) :: m)
    else if a = k then consCell a b m
    else (k, c) :: insertByte m a b

/-- `M[a]` (R50). -/
def readByte (m : Memory) (a : Word) : Byte := lookup m a.toNat

/-- `M[a] <- b` (R50). -/
def writeByte (m : Memory) (a : Word) (b : Byte) : Memory := insertByte m a.toNat b

/-- The `n` consecutive bytes from `a`, continuing at address 0 past the top (R52, R54, R69). -/
def readBytes (m : Memory) (a : Word) : Nat → List Byte
  | 0 => []
  | n + 1 => readByte m a :: readBytes m (a + 1) n

/-- Writes consecutive bytes from `a`, in increasing order, continuing at address 0 past the top (R53, R54, R68). -/
def writeBytes (m : Memory) (a : Word) : List Byte → Memory
  | [] => m
  | b :: bs => writeBytes (writeByte m a b) (a + 1) bs

/-- `MemRead(addr, n)` (R52): an unsigned number of 8n bits, the least significant byte first. -/
def memRead (m : Memory) (a : Word) (n : Nat) : Nat := leNat (readBytes m a n)

/-- `MemWrite(addr, n, v)` (R53): the low 8n bits of `v`, the least significant byte first. -/
def memWrite (m : Memory) (a : Word) (n : Nat) (v : Nat) : Memory := writeBytes m a (leBytes n v)

/-- The source's `read_half` and `read_word` (R52). -/
def readHalf (m : Memory) (a : Word) : Half := BitVec.ofNat 16 (memRead m a 2)
def readWord (m : Memory) (a : Word) : Word := BitVec.ofNat 32 (memRead m a 4)

/-- The source's `write_half` and `write_word` (R53). No instruction uses `write_half`. -/
def writeHalf (m : Memory) (a : Word) (v : Half) : Memory := memWrite m a 2 v.toNat
def writeWord (m : Memory) (a : Word) (v : Word) : Memory := memWrite m a 4 v.toNat

/-! ### Registers (10_state.md) -/

/-- `get(index)` over the unified index space (R28). -/
def State.get (s : State) (index : Nat) : Word :=
  if h : 1 ≤ index ∧ index ≤ 31 then s.regs[index - 1]
  else if index = 32 then s.hi
  else if index = 33 then s.lo
  else if index = 34 then s.pc
  else 0

/-- `set(index, value)` over the unified index space (R29). -/
def State.set (s : State) (index : Nat) (v : Word) : State :=
  if h : 1 ≤ index ∧ index ≤ 31 then { s with regs := s.regs.set (index - 1) v }
  else if index = 34 then { s with pc := v }
  else s

/-- `x[i]` (00_scope.md R11): 0 when i = 0 (10_state.md R21). -/
def State.x (s : State) (r : Reg) : Word := s.get r.toNat

/-- `x[i] <- v` (00_scope.md R11): discarded when i = 0 (10_state.md R21). -/
def State.setX (s : State) (r : Reg) (v : Word) : State := s.set r.toNat v

/-- `pc <- t` (00_scope.md R11). -/
def State.setPc (s : State) (t : Word) : State := { s with pc := t }

/-! ### Events and faults (60_exceptions.md) -/

/-- `emit E` (R209). -/
def State.emit (s : State) (e : Event) : State := { s with events := s.events ++ [e] }

/-- BadVAddr after a `signal` (R203): the misaligned address, unchanged by an overflow (D21, log 22). -/
def badVAddrAfter (k : FaultKind) (old : Word) : Word :=
  match k with
  | .alignment a _ => a
  | .overflow => old

/-- `signal` (R202), the machine's one exception operation: it records and returns. PC, the general registers, memory and
Status stay as they are (R204, R210). There is no return from it (R211). -/
def State.signal (s : State) (k : FaultKind) : State :=
  { s with
    epc := s.pc
    cause := Config.causeCode k
    badVAddr := badVAddrAfter k s.badVAddr
    events := s.events ++ [.faultSignal k s.pc] }

/-! ### The step's own operations (40_step_cycle.md) -/

/-- The precondition of a step (R111). -/
def State.pcAligned (s : State) : Bool := s.pc.toNat % 4 == 0

/-- A step starts with an empty list of events (R120). -/
def State.beginStep (s : State) : State := { s with events := [] }

/-- `MemRead(a, 4)`, the fetch of the word at `a` (R112). -/
def State.fetchAt (s : State) (a : Word) : Word := readWord s.mem a

/-- The unconditional trailing advance (R117). -/
def State.advance (s : State) : State := s.setPc (s.pc + 4)

/-- The state after an outcome's next state is changed by `f`; a stop stays a stop. -/
def thenNext (o : Result) (f : State → State) : Result :=
  match o with
  | .next t => .next (f t)
  | .fault r => .fault r
  | .refused r => .refused r

end Sys2Proof.Machine
end

