-- ==== Sys2Proof/Machine/Flags.lean ====
section
/-! DEFINITION. The tests and counts an instruction makes. The machine has NO flag and no condition code (10_state.md R32):
an overflow goes to `signal`, a comparison to a general register, a branch condition to PC. -/

namespace Sys2Proof.Machine

/-- Whether an exact signed result fits in 32 bits (43_arithmetic.md R146; this reading of "signed overflow" is D30,
log 26). -/
def fitsSigned (e : Int) : Bool := decide (-2 ^ 31 ≤ e ∧ e ≤ 2 ^ 31 - 1)

/-- `signed(a) + signed(b)`, exact (R146). -/
def exactAdd (a b : Word) : Int := a.toInt + b.toInt

/-- `signed(a) - signed(b)`, exact (R146); the operand order rs - rt is PRESUMED (G5, log 25). -/
def exactSub (a b : Word) : Int := a.toInt - b.toInt

/-- A test's outcome as the 32-bit value 1 or 0 (42_compare.md R140). -/
def ofTest (c : Bool) : Word := if c then 1 else 0

/-- `signed(a) < signed(b)` (42_compare.md R141). -/
def ltSigned (a b : Word) : Bool := decide (a.toInt < b.toInt)

/-- `a < b` as unsigned numbers (42_compare.md R143). -/
def ltUnsigned (a b : Word) : Bool := decide (a.toNat < b.toNat)

/-- BGTZ's `taken(v)` under a condition (45_control_transfer.md R169(1), R170). -/
def takenUnder (c : Config.BgtzCond) (v : Word) : Bool :=
  match c with
  | .signedGtZero => decide (0 < v.toInt)
  | .nonzero => v != 0

/-- BGTZ's taken condition (45_control_transfer.md R170). -/
def taken (v : Word) : Bool := takenUnder Config.bgtzCond v

/-- `popcount(v)`: the number of bits of `v` that are 1 (44_bitcount_lui_move.md R155). -/
def popcount (v : Word) : Nat := (List.range 32).countP fun k => v.getLsbD k

/-- The number of leading bits of `v` equal to `b`: what the alternative `leading` of `BITCOUNT` counts. -/
def leadingCount (b : Bool) (v : Word) : Nat := ((List.range 32).takeWhile fun k => v.getMsbD k == b).length

/-- What CLZ writes (44_bitcount_lui_move.md R156). -/
def clzCount (c : Config.BitCount) (v : Word) : Nat :=
  match c with
  | .population => popcount v
  | .leading => leadingCount false v

/-- What CLO writes (44_bitcount_lui_move.md R157). -/
def cloCount (c : Config.BitCount) (v : Word) : Nat :=
  match c with
  | .population => 32 - popcount v
  | .leading => leadingCount true v

end Sys2Proof.Machine
end

