-- ==== Sys2Proof/Machine/Operands.lean ====
section
/-! DEFINITION. The operand forms: extensions (00_scope.md R10), immediates (30_encoding.md R86), the effective address
(46_load_store.md R180), and the targets of JAL and BGTZ (45_control_transfer.md R168, R170). -/

namespace Sys2Proof.Machine

/-- `sext_16` (00_scope.md R10). -/
def sext16 (v : BitVec 16) : Word := v.signExtend 32

/-- `zext_16` (00_scope.md R10). -/
def zext16 (v : BitVec 16) : Word := v.setWidth 32

/-- `sext_8` (00_scope.md R10). -/
def sext8 (v : Byte) : Word := v.signExtend 32

/-- LUI's operand `imm << 16` = imm ∥ 0x0000 (30_encoding.md R86). -/
def upperImm (imm : Imm16) : Word := imm ++ 0#16

/-- BGTZ's operand `sext_18(imm ∥ 00)` (30_encoding.md R86). -/
def branchOffset (imm : Imm16) : Word := (imm ++ 0#2 : BitVec 18).signExtend 32

/-- JAL's `idx << 2` (30_encoding.md R87). -/
def indexShifted (idx : Index26) : Word := (idx ++ 0#2 : BitVec 28).setWidth 32

/-- `EA = (x[rs] + sext_16(imm)) mod 2^32` (46_load_store.md R180); base = rs is PRESUMED (D25, log 24). -/
def effectiveAddress (s : State) (rs : Reg) (imm : Imm16) : Word := s.x rs + sext16 imm

/-- The bits of an address that name its 256 MiB region (45_control_transfer.md R167(2)): PRESUMED (D12, log 12). -/
def regionBits (pc : Word) : Word := pc &&& 0xF0000000#32

/-- JAL's `combine` (45_control_transfer.md R167). -/
def combine (c : Config.JalCombine) (region shifted : Word) : Word :=
  match c with
  | .or => region ||| shifted
  | .and => region &&& shifted

/-- JAL's net target, `pc` being the slot's address (45_control_transfer.md R168). -/
def jalTarget (pc : Word) (idx : Index26) : Word := combine Config.jalCombine (regionBits pc) (indexShifted idx)

/-- What a taken BGTZ writes to PC, `pc` being the slot's address (45_control_transfer.md R170): the source's
"PC + sign_extend(imm<<2) − 8" and the parameter. -/
def branchPc (pc : Word) (imm : Imm16) : Word :=
  pc + branchOffset imm - 8 + Config.branchBaseOffset Config.branchBase

end Sys2Proof.Machine
end

