-- ==== Sys2Proof/Machine/Arithmetic.lean ====
section
/-! DEFINITION. The arithmetic instructions (43_arithmetic.md R145 to R152). -/

namespace Sys2Proof.Machine

/-- The end of a signed form with exact result `e` (R146): the low 32 bits are written when `e` fits; otherwise the
overflow is signalled and no register changes. -/
def writeOrOverflow (r : Reg) (e : Int) (s : State) : State :=
  if fitsSigned e then s.setX r (BitVec.ofInt 32 e) else s.signal .overflow

/-- ADD (R147). -/
def execAdd (rd rs rt : Reg) (s : State) : Result := .next (writeOrOverflow rd (exactAdd (s.x rs) (s.x rt)) s)

/-- ADDI, the immediate sign-extended (R148). -/
def execAddi (rt rs : Reg) (imm : Imm16) (s : State) : Result :=
  .next (writeOrOverflow rt (exactAdd (s.x rs) (sext16 imm)) s)

/-- ADDU (R149). -/
def execAddu (rd rs rt : Reg) (s : State) : Result := .next (s.setX rd (s.x rs + s.x rt))

/-- ADDIU, the immediate sign-extended (R150). -/
def execAddiu (rt rs : Reg) (imm : Imm16) (s : State) : Result := .next (s.setX rt (s.x rs + sext16 imm))

/-- SUB (R151). -/
def execSub (rd rs rt : Reg) (s : State) : Result := .next (writeOrOverflow rd (exactSub (s.x rs) (s.x rt)) s)

/-- SUBU (R152); operand order as SUB, PRESUMED (G5, log 25). -/
def execSubu (rd rs rt : Reg) (s : State) : Result := .next (s.setX rd (s.x rs - s.x rt))

end Sys2Proof.Machine
end

