-- ==== Sys2Proof/Machine/Compare.lean ====
section
/-! DEFINITION. The comparison instructions (42_compare.md R140 to R143). -/

namespace Sys2Proof.Machine

/-- SLT (R141). -/
def execSlt (rd rs rt : Reg) (s : State) : Result := .next (s.setX rd (ofTest (ltSigned (s.x rs) (s.x rt))))

/-- SLTI, signed against the sign-extended immediate (R142). -/
def execSlti (rt rs : Reg) (imm : Imm16) (s : State) : Result :=
  .next (s.setX rt (ofTest (ltSigned (s.x rs) (sext16 imm))))

/-- SLTIU, unsigned against the sign-extended immediate (R143). -/
def execSltiu (rt rs : Reg) (imm : Imm16) (s : State) : Result :=
  .next (s.setX rt (ofTest (ltUnsigned (s.x rs) (sext16 imm))))

end Sys2Proof.Machine
end

