-- ==== Sys2Proof/Machine/CountMove.lean ====
section
/-! DEFINITION. Bit counts, load upper and conditional moves (44_bitcount_lui_move.md R155 to R160). -/

namespace Sys2Proof.Machine

/-- CLZ (R156): in spite of its name, the number of ONE bits (D5, log 11). -/
def execClz (rd rs : Reg) (s : State) : Result :=
  .next (s.setX rd (BitVec.ofNat 32 (clzCount Config.bitCount (s.x rs))))

/-- CLO (R157): in spite of its name, the number of ZERO bits (D5, log 11). -/
def execClo (rd rs : Reg) (s : State) : Result :=
  .next (s.setX rd (BitVec.ofNat 32 (cloCount Config.bitCount (s.x rs))))

/-- LUI (R158). -/
def execLui (rt : Reg) (imm : Imm16) (s : State) : Result := .next (s.setX rt (upperImm imm))

/-- MOVZ (R159). -/
def execMovz (rd rs rt : Reg) (s : State) : Result := .next (if s.x rt = 0 then s.setX rd (s.x rs) else s)

/-- MOVN (R160). -/
def execMovn (rd rs rt : Reg) (s : State) : Result := .next (if s.x rt ≠ 0 then s.setX rd (s.x rs) else s)

end Sys2Proof.Machine
end

