-- ==== Sys2Proof/Machine/LoadStore.lean ====
section
/-! DEFINITION. Loads and the store (46_load_store.md R180 to R186). A misaligned access signals first and is then performed
at the address as computed (R181; the order is D33, log 31). -/

namespace Sys2Proof.Machine

/-- The alignment requirement of an access of `n` bytes at `ea` (R181; 20_memory.md R55): when it fails, the fault is
signalled and the instruction goes on. -/
def checkAligned (n : Nat) (ea : Word) (a : Access) (s : State) : State :=
  if ea.toNat % n = 0 then s else s.signal (.alignment ea a)

/-- LB (R182). -/
def execLb (rt rs : Reg) (imm : Imm16) (s : State) : Result :=
  .next (s.setX rt (sext8 (readByte s.mem (effectiveAddress s rs imm))))

/-- The end of a load once its address is known: the check, then the write of the value read. -/
def loadFrom (n : Nat) (rt : Reg) (ea : Word) (value : Memory → Word → Word) (s : State) : State :=
  (checkAligned n ea .load s).setX rt (value s.mem ea)

/-- LH (R183). -/
def execLh (rt rs : Reg) (imm : Imm16) (s : State) : Result :=
  .next (loadFrom 2 rt (effectiveAddress s rs imm) (fun m a => sext16 (readHalf m a)) s)

/-- LW (R184). -/
def execLw (rt rs : Reg) (imm : Imm16) (s : State) : Result :=
  .next (loadFrom 4 rt (effectiveAddress s rs imm) readWord s)

/-- The store of a word at `ea`: the check, then the write of four bytes (R185). -/
def storeWordAt (ea : Word) (v : Word) (s : State) : State :=
  { checkAligned 4 ea .store s with mem := writeWord s.mem ea v }

/-- SW (R185). -/
def execSw (rt rs : Reg) (imm : Imm16) (s : State) : Result :=
  .next (storeWordAt (effectiveAddress s rs imm) (s.x rt) s)

end Sys2Proof.Machine
end

