-- ==== Sys2Proof/Machine/Logical.lean ====
section
/-! DEFINITION. The logical instructions (41_logical.md R130 to R137). -/

namespace Sys2Proof.Machine

/-- AND (R131). -/
def execAnd (rd rs rt : Reg) (s : State) : Result := .next (s.setX rd (s.x rs &&& s.x rt))

/-- OR (R132). -/
def execOr (rd rs rt : Reg) (s : State) : Result := .next (s.setX rd (s.x rs ||| s.x rt))

/-- XOR (R133). -/
def execXor (rd rs rt : Reg) (s : State) : Result := .next (s.setX rd (s.x rs ^^^ s.x rt))

/-- NOR (R134). -/
def execNor (rd rs rt : Reg) (s : State) : Result := .next (s.setX rd (~~~(s.x rs ||| s.x rt)))

/-- ANDI, the immediate zero-extended (R135). -/
def execAndi (rt rs : Reg) (imm : Imm16) (s : State) : Result := .next (s.setX rt (s.x rs &&& zext16 imm))

/-- ORI, the immediate zero-extended (R136). -/
def execOri (rt rs : Reg) (imm : Imm16) (s : State) : Result := .next (s.setX rt (s.x rs ||| zext16 imm))

/-- XORI, the immediate zero-extended (R137). -/
def execXori (rt rs : Reg) (imm : Imm16) (s : State) : Result := .next (s.setX rt (s.x rs ^^^ zext16 imm))

end Sys2Proof.Machine
end

