-- ==== Sys2Proof/Machine/System.lean ====
section
/-! DEFINITION. SYSCALL and the unrecognized word (47_system_and_unrecognized.md R190 to R193). -/

namespace Sys2Proof.Machine

/-- SYSCALL (R191): the event carries the SYSCALL's own address; nothing else happens. -/
def execSyscall (s : State) : Result := .next (s.emit (.syscall s.pc))

/-- An unrecognized word (R192): no state change, no fault, no event. -/
def execUnrecognized (s : State) : Result := .next s

end Sys2Proof.Machine
end

