-- ==== Sys2Proof/Machine/Slot.lean ====
section
/-! DEFINITION. The delay-slot (nested) step of JAL and BGTZ (40_step_cycle.md R115, R116, R121, R122). -/

namespace Sys2Proof.Machine

/-- `exec_ordinary(d)` (R122), the handler of an instruction that may stand in a delay slot; a control transfer there is
refused (R121; D13, log 18). -/
def execOrdinary (i : Instr) (s : State) : Result :=
  match i with
  | .and rd rs rt => execAnd rd rs rt s
  | .or rd rs rt => execOr rd rs rt s
  | .xor rd rs rt => execXor rd rs rt s
  | .nor rd rs rt => execNor rd rs rt s
  | .andi rt rs imm => execAndi rt rs imm s
  | .ori rt rs imm => execOri rt rs imm s
  | .xori rt rs imm => execXori rt rs imm s
  | .slt rd rs rt => execSlt rd rs rt s
  | .slti rt rs imm => execSlti rt rs imm s
  | .sltiu rt rs imm => execSltiu rt rs imm s
  | .add rd rs rt => execAdd rd rs rt s
  | .addi rt rs imm => execAddi rt rs imm s
  | .addu rd rs rt => execAddu rd rs rt s
  | .addiu rt rs imm => execAddiu rt rs imm s
  | .sub rd rs rt => execSub rd rs rt s
  | .subu rd rs rt => execSubu rd rs rt s
  | .clz rd rs => execClz rd rs s
  | .clo rd rs => execClo rd rs s
  | .lui rt imm => execLui rt imm s
  | .movz rd rs rt => execMovz rd rs rt s
  | .movn rd rs rt => execMovn rd rs rt s
  | .jr _ => .refused .transferInDelaySlot
  | .jal _ => .refused .transferInDelaySlot
  | .bgtz _ _ => .refused .transferInDelaySlot
  | .lb rt rs imm => execLb rt rs imm s
  | .lh rt rs imm => execLh rt rs imm s
  | .lw rt rs imm => execLw rt rs imm s
  | .sw rt rs imm => execSw rt rs imm s
  | .syscall => execSyscall s

/-- The word after the instruction being executed: `MemRead((A + 4) mod 2^32, 4)` (R115). -/
def slotWord (s : State) : Word := s.fetchAt (s.pc + 4)

/-- The machine as the slot instruction finds it: PC holds the slot's own address (R116; D9, log 16). -/
def enterSlot (s : State) : State := s.setPc (s.pc + 4)

/-- The nested step, started at the address A of the JAL or BGTZ: the slot's handler runs to completion, with no advance
of its own (R115, R116). -/
def runSlot (s : State) : Result :=
  match decode (slotWord s) with
  | .ok i => execOrdinary i (enterSlot s)
  | .error _ => execUnrecognized (enterSlot s)

end Sys2Proof.Machine
end

