-- ==== Sys2Proof/Machine/Control.lean ====
section
/-! DEFINITION. The control transfers (45_control_transfer.md R165 to R172). A handler that wants the next PC to be T leaves
T - 4, which the step's trailing advance makes T (40_step_cycle.md R117). -/

namespace Sys2Proof.Machine

/-- JR (R166): no delay slot. -/
def execJr (rs : Reg) (s : State) : Result := .next (s.setPc (s.x rs - 4))

/-- JAL once its slot has run, PC being the slot's address: the link, A + 8 (D11, log 13), then the jump (R168; the
order is D8, log 15). -/
def linkAndJump (idx : Index26) (t : State) : State := (t.setX 31 (t.pc + 4)).setPc (jalTarget t.pc idx - 4)

/-- JAL (R168). -/
def execJal (idx : Index26) (s : State) : Result := thenNext (runSlot s) (linkAndJump idx)

/-- BGTZ once its slot has run, PC being the slot's address: x[rs] is read now (R170; D8, log 15). -/
def branchIfTaken (rs : Reg) (imm : Imm16) (t : State) : State :=
  if taken (t.x rs) then t.setPc (branchPc t.pc imm) else t

/-- BGTZ (R170). -/
def execBgtz (rs : Reg) (imm : Imm16) (s : State) : Result := thenNext (runSlot s) (branchIfTaken rs imm)

end Sys2Proof.Machine
end

