-- ==== Sys2Proof/Machine/Step.lean ====
section
/-! DEFINITION. The one transition of the machine (40_step_cycle.md R122). -/

namespace Sys2Proof.Machine

/-- What the fetched word does: its instruction's handler, or nothing for an unrecognized word (40_step_cycle.md R114). -/
def execWord (w : Word) (s : State) : Host.Outcome State Fault Refusal :=
  match decode w with
  | .ok i => exec i s
  | .error _ => execUnrecognized s

/-- `step()` (R122): the check of PC (R111), fetch (R112), decode (R113), dispatch (R114), the handler, and the
unconditional trailing advance (R117). -/
def step (s : State) : Host.Outcome State Fault Refusal :=
  if s.pcAligned then thenNext (execWord (s.fetchAt s.pc) s.beginStep) State.advance
  else .refused .misalignedPC

/-- The state whose next step fetches the instruction with table bits `w`: its bytes stand in memory at PC. It stands for
the host's image load of that one word (log 29). -/
def State.withFetchWord (s : State) (nbits w : Nat) : State :=
  { s with mem := writeBytes s.mem s.pc (tableBytes nbits w) }

end Sys2Proof.Machine
end

