-- ==== Sys2Proof/Machine/Boundary.lean ====
section
/-! DEFINITION. The boundary the core offers its host (70_reset_and_hazards.md R233): construction, image load, `reset()`,
`step()` and the read accessors. Every one happens between steps; the host has no other write (D34, log 30). -/

namespace Sys2Proof.Machine

/-- `load_segment(bytes, base)` (20_memory.md R68): verbatim, in increasing order, wrapping at the top (D32, log 36). -/
def State.loadSegment (s : State) (bytes : List Byte) (base : Word) : State :=
  { s with mem := writeBytes s.mem base bytes }

/-- Image load (R234): the instruction segment first, the data segment second. -/
def State.loadImage (s : State) (text data : List Byte) : State :=
  (s.loadSegment text Config.textBase).loadSegment data Config.dataBase

/-- `reset()` (R231): the general registers and PC; everything else keeps its value (D20, log 5). -/
def State.resetOp (s : State) : State := { s with regs := resetRegs, pc := Config.textBase }

/-- Register read by index (R238): `get(index)`. -/
def State.readRegister (s : State) (index : Nat) : Word := s.get index

/-- Fault-register read (R238): BadVAddr, Status, Cause, EPC (D23, log 7). -/
def State.readFaultRegisters (s : State) : Word × Word × Word × Word := (s.badVAddr, s.status, s.cause, s.epc)

/-- Memory-range read (R237; 20_memory.md R69). -/
def State.readMemory (s : State) (a : Word) (len : Nat) : List Byte := readBytes s.mem a len

/-- "decode instruction at PC+offset for display" (R239; 30_encoding.md R95; D31, log 35). -/
def State.decodeAt (s : State) (offset : Word) : Descriptor := describe (s.fetchAt (s.pc + offset))

/-- What the host may do to a constructed engine (the table of R233); reads change nothing and are not listed. -/
inductive HostOp where
  | loadSegment (bytes : List Byte) (base : Word)
  | reset
  | step
deriving DecidableEq, Repr

/-- The effect of a host operation. -/
def hostDo (o : HostOp) (s : State) : Host.Outcome State Fault Refusal :=
  match o with
  | .loadSegment bytes base => .next (s.loadSegment bytes base)
  | .reset => .next s.resetOp
  | .step => step s

end Sys2Proof.Machine
end

