-- ==== Sys2Proof/Safety.lean ====
section
/-! DEFINITION. What the statements about the machine are said with: the frames (what an instruction leaves unchanged), the
invariant, when a step has an outcome, and what is reachable. -/

namespace Sys2Proof.Machine

/-! ### Frames -/

/-- Every byte of memory reads the same. -/
def SameMemory (s t : State) : Prop := ∀ a : Word, readByte t.mem a = readByte s.mem a

/-- Every byte of memory outside the `n` bytes at `ea`, ..., `ea + n - 1` (modulo 2^32) reads the same. -/
def SameMemoryOutside (s t : State) (ea : Word) (n : Nat) : Prop :=
  ∀ a : Word, n ≤ (a - ea).toNat → readByte t.mem a = readByte s.mem a

/-- Every general register reads the same, but for `rd`. -/
def SameRegistersBut (s t : State) (rd : Reg) : Prop := ∀ r : Reg, r ≠ rd → t.x r = s.x r

/-- Every general register reads the same. -/
def SameRegisters (s t : State) : Prop := ∀ r : Reg, t.x r = s.x r

/-- The two constant registers (10_state.md R27). -/
def SameConstants (s t : State) : Prop := t.hi = s.hi ∧ t.lo = s.lo

/-- The four fault registers (10_state.md R30). -/
def SameFaultRegisters (s t : State) : Prop :=
  t.badVAddr = s.badVAddr ∧ t.status = s.status ∧ t.cause = s.cause ∧ t.epc = s.epc

/-- Register `rd` receives `v`, or nothing when `rd` is register 0 (10_state.md R21); no other general register changes. -/
def RegisterReceives (s t : State) (rd : Reg) (v : Word) : Prop :=
  t.x rd = (if rd = 0 then 0 else v) ∧ SameRegistersBut s t rd

/-- `t` is `s` but for register `rd`, which receives `v`: no other register, no fault register, no byte of memory, no
event, and not PC, changes. -/
def OnlyRegister (s t : State) (rd : Reg) (v : Word) : Prop :=
  RegisterReceives s t rd v ∧ t.pc = s.pc ∧ SameConstants s t ∧ SameFaultRegisters s t ∧ SameMemory s t ∧
    t.events = s.events

/-- The fault registers and the event list after `signal k` at a state with PC `s.pc` (60_exceptions.md R202 to R206). -/
def RecordsFault (s t : State) (k : FaultKind) : Prop :=
  t.epc = s.pc ∧ t.cause = Config.causeCode k ∧ t.status = s.status ∧
    t.badVAddr = (match k with | .alignment a _ => a | .overflow => s.badVAddr) ∧
    t.events = s.events ++ [.faultSignal k s.pc]

/-- Nothing but PC changes. -/
def OnlyPc (s t : State) (pc : Word) : Prop :=
  t.pc = pc ∧ SameRegisters s t ∧ SameConstants s t ∧ SameFaultRegisters s t ∧ SameMemory s t ∧ t.events = s.events

/-! ### The registers an instruction names (10_state.md R23) -/

/-- The destination field of an instruction, for the ones that have one. JAL has none: its link register is fixed. -/
def destination : Instr → Option Reg
  | .and rd _ _ | .or rd _ _ | .xor rd _ _ | .nor rd _ _ | .slt rd _ _ => some rd
  | .add rd _ _ | .addu rd _ _ | .sub rd _ _ | .subu rd _ _ => some rd
  | .movz rd _ _ | .movn rd _ _ | .clz rd _ | .clo rd _ => some rd
  | .andi rt _ _ | .ori rt _ _ | .xori rt _ _ | .slti rt _ _ | .sltiu rt _ _ => some rt
  | .addi rt _ _ | .addiu rt _ _ | .lui rt _ | .lb rt _ _ | .lh rt _ _ | .lw rt _ _ => some rt
  | .jr _ | .jal _ | .bgtz _ _ | .sw _ _ _ | .syscall => none

/-- The same instruction with another destination field. -/
def withDestination (i : Instr) (r : Reg) : Instr :=
  match i with
  | .and _ rs rt => .and r rs rt
  | .or _ rs rt => .or r rs rt
  | .xor _ rs rt => .xor r rs rt
  | .nor _ rs rt => .nor r rs rt
  | .andi _ rs imm => .andi r rs imm
  | .ori _ rs imm => .ori r rs imm
  | .xori _ rs imm => .xori r rs imm
  | .slt _ rs rt => .slt r rs rt
  | .slti _ rs imm => .slti r rs imm
  | .sltiu _ rs imm => .sltiu r rs imm
  | .add _ rs rt => .add r rs rt
  | .addi _ rs imm => .addi r rs imm
  | .addu _ rs rt => .addu r rs rt
  | .addiu _ rs imm => .addiu r rs imm
  | .sub _ rs rt => .sub r rs rt
  | .subu _ rs rt => .subu r rs rt
  | .clz _ rs => .clz r rs
  | .clo _ rs => .clo r rs
  | .lui _ imm => .lui r imm
  | .movz _ rs rt => .movz r rs rt
  | .movn _ rs rt => .movn r rs rt
  | .jr rs => .jr rs
  | .jal idx => .jal idx
  | .bgtz rs imm => .bgtz rs imm
  | .lb _ rs imm => .lb r rs imm
  | .lh _ rs imm => .lh r rs imm
  | .lw _ rs imm => .lw r rs imm
  | .sw rt rs imm => .sw rt rs imm
  | .syscall => .syscall

/-- The registers an instruction's own effect may write: its destination, and r31 for JAL (R23). -/
def registersWritten (i : Instr) : List Reg :=
  match i with
  | .jal _ => [31]
  | _ => (destination i).toList

/-! ### The invariant -/

/-- What every step of the machine keeps: memory in canonical form, HI, LO and Status at their constants (10_state.md
R27; 60_exceptions.md R204), and at most one event a step (60_exceptions.md R208). -/
abbrev Inv (s : State) : Prop :=
  Memory.wf s.mem = true ∧ s.hi = Config.hiInit ∧ s.lo = Config.loInit ∧ s.status = Config.faultInit ∧
    s.events.length ≤ 1

/-! ### When a step has an outcome -/

/-- The instruction at PC, if the word there is one. -/
def current (s : State) : Option Instr := (decode (s.fetchAt s.pc)).toOption

/-- The instruction in the slot of the one at PC, if the word there is one. -/
def inSlot (s : State) : Option Instr := (decode (slotWord s)).toOption

/-- The slot of the instruction at PC runs to completion, from the state whose PC is the slot's own address, and leaves
`u`: its instruction is ordinary and does what it always does, or its word is unrecognized and does nothing
(40_step_cycle.md R115, R116). -/
def SlotRuns (s u : State) : Prop :=
  (∃ i, inSlot s = some i ∧ i.isTransfer = false ∧ exec i { s with pc := s.pc + 4 } = .next u) ∨
  (inSlot s = none ∧ u = { s with pc := s.pc + 4 })

/-- A JAL or BGTZ stands at PC and a JR, JAL or BGTZ in its slot (40_step_cycle.md R121). -/
def TransferInSlot (s : State) : Prop :=
  (current s).any Instr.isDelayedTransfer = true ∧ (inSlot s).any Instr.isTransfer = true

/-- The instruction that does the step's register, memory and fault work besides the transfer itself: the one in the slot
of a JAL or BGTZ, otherwise the one at PC; and the state it finds (40_step_cycle.md R116, R122). -/
def worker (s : State) : Option Instr :=
  if (current s).any Instr.isDelayedTransfer then inSlot s else current s

/-- The address of `worker`: A + 4 in a slot, A otherwise (60_exceptions.md R205). -/
def workerPc (s : State) : Word := if (current s).any Instr.isDelayedTransfer then s.pc + 4 else s.pc

/-- The step is one the spec gives an outcome (40_step_cycle.md R111, R121). -/
def Ready (s : State) : Prop := s.pc.toNat % 4 = 0 ∧ ¬ TransferInSlot s

/-- The last step recorded no fault. -/
def NoFault (s : State) : Prop := ∀ k pc, Event.faultSignal k pc ∉ s.events

/-- The states a host can bring the machine to from power-on (70_reset_and_hazards.md R233). -/
inductive Reachable : State → Prop where
  | powerOn : Reachable State.reset
  | host (s t : State) (o : HostOp) : Reachable s → hostDo o s = .next t → Reachable t

/-! ### What a program can see -/

/-- Two states that agree on everything an instruction can read: the general registers, PC and memory (10_state.md R30:
no instruction reads a fault register; R27: none reads HI or LO; R34: no rule reads the events). -/
def SameProgramView (s t : State) : Prop := t.regs = s.regs ∧ t.pc = s.pc ∧ t.mem = s.mem

end Sys2Proof.Machine
end

