-- ==== Sys2Proof/Certificates/Slice0/Obligations.lean ====
section
/-! DEFINITION. The statements for the provers, in the order of OBLIGATIONS.json. A statement that rests on a decision of the
spec's own (92_eei_decisions.md) or on a value the model chose says so and names the log entry. -/

open Sys2Proof Sys2Proof.Machine

/-! ### Registers (10_state.md) -/

/-- R20: indices 1 to 31 are storage, one bank. -/
def Obligations.GeneralRegistersAreStorage : Prop :=
  ∀ (s : State) (i : Nat) (v : Word), 1 ≤ i → i ≤ 31 →
    (s.set i v).get i = v ∧ ∀ j, j ≠ i → (s.set i v).get j = s.get j

/-- R21: register 0 reads as 0 and discards writes; an instruction with destination field 0 completes, records the fault it
would record with any other destination, and changes no register and no byte of memory. -/
def Obligations.RegisterZeroIsConstant : Prop :=
  (∀ s : State, s.get 0 = 0 ∧ s.x 0 = 0 ∧ ∀ v, s.set 0 v = s) ∧
  ∀ (i : Instr) (s : State), destination i = some 0 →
    ∃ t, exec i s = .next t ∧ SameRegisters s t ∧ SameMemory s t ∧ t.pc = s.pc ∧
      ∀ r : Reg, ∃ t', exec (withDestination i r) s = .next t' ∧ SameFaultRegisters t t' ∧ t'.events = t.events

/-- R28: `get(index)` over the unified index space. -/
def Obligations.RegisterReadByIndex : Prop :=
  ∀ s : State, s.get 0 = 0 ∧ (∀ i, (h : 1 ≤ i ∧ i ≤ 31) → s.get i = s.regs[i - 1]) ∧
    s.get 32 = s.hi ∧ s.get 33 = s.lo ∧ s.get 34 = s.pc ∧ ∀ i, 34 < i → s.get i = 0

/-- 10_state.md section 4: `set(34, v)` writes PC, and every index that is neither 1 to 31 nor 34 is a silent no-op. -/
def Obligations.RegisterWriteByIndex : Prop :=
  ∀ (s : State) (v : Word), s.set 34 v = { s with pc := v } ∧
    ∀ i, i = 0 ∨ i = 32 ∨ i = 33 ∨ 34 < i → s.set i v = s

/-- 10_state.md R23 (its table; that CLZ and CLO write rd and the loads rt is PRESUMED, D4, D25, log 10 and 24), over a
whole step: a general register that is written neither by the instruction at PC nor
by the one in its slot keeps its value. -/
def Obligations.StepWritesOnlyNamedRegisters : Prop :=
  ∀ (s t : State) (r : Reg), step s = .next t →
    (∀ i, current s = some i → r ∉ registersWritten i) →
    (∀ i, worker s = some i → r ∉ registersWritten i) → t.x r = s.x r

/-! ### Memory (20_memory.md) -/

/-- R50: every byte is plain storage, every access of every address completes, and the word a fetch takes is the word stored
there, whatever the address: at an aligned PC the step runs what the stored word decodes to, or is the no-op of an
unrecognized word, and completes (for a JAL or BGTZ, when no control transfer stands in its slot). The premise on memory
is the invariant of its form. -/
def Obligations.EveryByteIsPlainStorage : Prop :=
  (∀ (m : Memory) (a : Word) (b : Byte), Memory.wf m = true →
    Memory.wf (writeByte m a b) = true ∧ readByte (writeByte m a b) a = b ∧
      ∀ x, x ≠ a → readByte (writeByte m a b) x = readByte m x) ∧
  (∀ (s : State) (rt rs : Reg) (imm : Imm16), (∃ t, exec (.lb rt rs imm) s = .next t) ∧
    (∃ t, exec (.lh rt rs imm) s = .next t) ∧ (∃ t, exec (.lw rt rs imm) s = .next t) ∧
    (∃ t, exec (.sw rt rs imm) s = .next t)) ∧
  (∀ (s : State) (a w : Word), Memory.wf s.mem = true → State.fetchAt { s with mem := writeWord s.mem a w } a = w) ∧
  ∀ (s : State) (w : Word), Memory.wf s.mem = true → s.pc.toNat % 4 = 0 →
    let s' : State := { s with mem := writeWord s.mem s.pc w }
    (∀ i, decode w = .ok i →
      step s' = thenNext (exec i { s' with events := [] }) (fun t => { t with pc := t.pc + 4 }) ∧
      ((i.isDelayedTransfer = true → (inSlot s').any Instr.isTransfer = false) →
        ∃ t, step s' = .next t ∧ (i.isTransfer = false → t.pc = s.pc + 4))) ∧
    (∀ e, decode w = .error e → step s' = .next { s' with pc := s.pc + 4, events := [] })

/-- R52: `MemRead(addr, n)` is the sum of the bytes, least significant first, with wrapping addresses. -/
def Obligations.MemReadIsLittleEndianSum : Prop :=
  (∀ (m : Memory) (a : Word) (n : Nat), n ∈ [1, 2, 4] →
    memRead m a n = ((List.range n).map fun i => (readByte m (a + BitVec.ofNat 32 i)).toNat <<< (8 * i)).sum ∧
      memRead m a n < 2 ^ (8 * n)) ∧
  ∀ (m : Memory) (a : Word), (readHalf m a).toNat = memRead m a 2 ∧ (readWord m a).toNat = memRead m a 4

/-- R53: `MemWrite(addr, n, v)` stores the low 8n bits of v, little-endian, and nothing else; reading them back gives them;
SW is the only instruction whose own effect writes memory. The premise is the invariant that rules out memories no
operation builds. -/
def Obligations.MemWriteStoresLittleEndian : Prop :=
  (∀ (m : Memory) (a : Word) (n v : Nat), Memory.wf m = true → n ∈ [1, 2, 4] →
    (∀ i, i < n → readByte (memWrite m a n v) (a + BitVec.ofNat 32 i) = BitVec.ofNat 8 ((v >>> (8 * i)) &&& 0xFF)) ∧
    (∀ x, n ≤ (x - a).toNat → readByte (memWrite m a n v) x = readByte m x) ∧
    memRead (memWrite m a n v) a n = v % 2 ^ (8 * n)) ∧
  (∀ (m : Memory) (a v : Word), Memory.wf m = true → readWord (writeWord m a v) a = v) ∧
  (∀ (m : Memory) (a : Word) (v : Half), Memory.wf m = true → readHalf (writeHalf m a v) a = v) ∧
  ∀ (i : Instr) (s t : State), exec i s = .next t → (∀ rt rs imm, i ≠ .sw rt rs imm) → i.isDelayedTransfer = false →
    t.mem = s.mem

/-- 20_memory.md section 3 and 40_step_cycle.md section 4 (that the base of SW is rs and the stored register rt is
PRESUMED, D25, log 24; that its four bytes wrap at the top is D16, log 21), over a whole step: memory changes only when
the instruction that does the step's work is an SW, and then only in the four bytes at its effective address, computed on
the state it finds (the slot changes nothing the address is computed from). -/
def Obligations.StepStoresOnlyWhereSwPoints : Prop :=
  ∀ s t : State, Memory.wf s.mem = true → step s = .next t →
    (∀ rt rs imm, worker s = some (.sw rt rs imm) →
      SameMemoryOutside s t (effectiveAddress s rs imm) 4 ∧ readWord t.mem (effectiveAddress s rs imm) = s.x rt) ∧
    ((∀ rt rs imm, worker s ≠ some (.sw rt rs imm)) → t.mem = s.mem)

/-- Log 37: the model's canonical form makes equal memories equal data. -/
def Obligations.CanonicalMemoryIsDeterminedByItsBytes : Prop :=
  ∀ m n : Memory, Memory.wf m = true → Memory.wf n = true → (∀ a : Word, readByte m a = readByte n a) → m = n

/-- 20_memory.md section 8 (D32, log 36): `load_segment` copies verbatim from the base, wrapping, and changes nothing
else: no other byte, no register, no fault register, no event; the memory-range read gives the segment back. -/
def Obligations.LoadSegmentCopiesVerbatim : Prop :=
  ∀ (s : State) (bytes : List Byte) (base : Word), Memory.wf s.mem = true → bytes.length ≤ 2 ^ 32 →
    (s.loadSegment bytes base).readMemory base bytes.length = bytes ∧
    (∀ i, (h : i < bytes.length) →
      readByte (s.loadSegment bytes base).mem (base + BitVec.ofNat 32 i) = bytes[i]) ∧
    SameMemoryOutside s (s.loadSegment bytes base) base bytes.length ∧
    (s.loadSegment bytes base).pc = s.pc ∧
    (s.loadSegment bytes base).regs = s.regs ∧ SameConstants s (s.loadSegment bytes base) ∧
    SameFaultRegisters s (s.loadSegment bytes base) ∧ (s.loadSegment bytes base).events = s.events

/-- 20_memory.md section 7 (that SW stores x[rt] at x[rs] + imm is PRESUMED, D25, log 24): a store is seen by the next
fetch. An SW at A that stores a word at A + 4 is followed by a step that runs the stored word. -/
def Obligations.StoredInstructionIsFetchedNext : Prop :=
  ∀ (s t : State) (rt rs : Reg) (imm : Imm16), Memory.wf s.mem = true → current s = some (.sw rt rs imm) →
    effectiveAddress s rs imm = s.pc + 4 → step s = .next t →
    t.pc = s.pc + 4 ∧ t.fetchAt t.pc = s.x rt ∧ current t = (decode (s.x rt)).toOption

/-! ### Encoding (30_encoding.md) -/

/-- 30_encoding.md section 2 (the field positions are PRESUMED, D2, log 9): selection is by the primary opcode, and under
opcodes 0 and 0x1C by the function code as well, and by nothing else. -/
def Obligations.SelectionByOpcodeAndFunctionAlone : Prop :=
  (∀ (w : Word) (i : Instr), decode w = .ok i → opc i = opcodeOf w ∧
    (opcodeOf w = 0x00#6 ∨ opcodeOf w = 0x1C#6 → fn i = some (functOf w)) ∧
    (¬ (opcodeOf w = 0x00#6 ∨ opcodeOf w = 0x1C#6) → fn i = none)) ∧
  ∀ w w' : Word, opcodeOf w = opcodeOf w' →
    (opcodeOf w = 0x00#6 ∨ opcodeOf w = 0x1C#6 → functOf w = functOf w') →
    (decode w).toOption.map selectorBits = (decode w').toOption.map selectorBits

/-- 30_encoding.md sections 1 to 4 (numbers and positions PRESUMED, D1, D2, D3, log 8 and 9; the roles of the fields in
CLZ and CLO D4, log 10, in loads and SW D25, log 24; ignored bits D29, log 27): what every word of each row decodes to,
with the fields the row ignores at every value they can take. -/
def Obligations.EveryRowDecodesWithIgnoredBitsFree : Prop :=
  ∀ (rs rt rd : Reg) (sh : BitVec 5) (imm : Imm16) (idx : Index26),
    decode (rWord 0x00 rs rt rd sh 0x24) = .ok (.and rd rs rt) ∧
    decode (rWord 0x00 rs rt rd sh 0x25) = .ok (.or rd rs rt) ∧
    decode (rWord 0x00 rs rt rd sh 0x26) = .ok (.xor rd rs rt) ∧
    decode (rWord 0x00 rs rt rd sh 0x27) = .ok (.nor rd rs rt) ∧
    decode (rWord 0x00 rs rt rd sh 0x2A) = .ok (.slt rd rs rt) ∧
    decode (rWord 0x00 rs rt rd sh 0x20) = .ok (.add rd rs rt) ∧
    decode (rWord 0x00 rs rt rd sh 0x21) = .ok (.addu rd rs rt) ∧
    decode (rWord 0x00 rs rt rd sh 0x22) = .ok (.sub rd rs rt) ∧
    decode (rWord 0x00 rs rt rd sh 0x23) = .ok (.subu rd rs rt) ∧
    decode (rWord 0x00 rs rt rd sh 0x0A) = .ok (.movz rd rs rt) ∧
    decode (rWord 0x00 rs rt rd sh 0x0B) = .ok (.movn rd rs rt) ∧
    decode (rWord 0x00 rs rt rd sh 0x08) = .ok (.jr rs) ∧
    decode (rWord 0x00 rs rt rd sh 0x0C) = .ok .syscall ∧
    decode (rWord 0x1C rs rt rd sh 0x20) = .ok (.clz rd rs) ∧
    decode (rWord 0x1C rs rt rd sh 0x21) = .ok (.clo rd rs) ∧
    decode (iWord 0x0C rs rt imm) = .ok (.andi rt rs imm) ∧
    decode (iWord 0x0D rs rt imm) = .ok (.ori rt rs imm) ∧
    decode (iWord 0x0E rs rt imm) = .ok (.xori rt rs imm) ∧
    decode (iWord 0x0A rs rt imm) = .ok (.slti rt rs imm) ∧
    decode (iWord 0x0B rs rt imm) = .ok (.sltiu rt rs imm) ∧
    decode (iWord 0x08 rs rt imm) = .ok (.addi rt rs imm) ∧
    decode (iWord 0x09 rs rt imm) = .ok (.addiu rt rs imm) ∧
    decode (iWord 0x0F rs rt imm) = .ok (.lui rt imm) ∧
    decode (iWord 0x07 rs rt imm) = .ok (.bgtz rs imm) ∧
    decode (iWord 0x20 rs rt imm) = .ok (.lb rt rs imm) ∧
    decode (iWord 0x21 rs rt imm) = .ok (.lh rt rs imm) ∧
    decode (iWord 0x23 rs rt imm) = .ok (.lw rt rs imm) ∧
    decode (iWord 0x2B rs rt imm) = .ok (.sw rt rs imm) ∧
    decode (jWord 0x03 idx) = .ok (.jal idx)

/-- 30_encoding.md section 4 (numbers PRESUMED, D1, log 8): a word is recognised exactly when it matches a row of the table,
it decodes to an instruction of that row, and no word matches two rows. -/
def Obligations.RecognisedExactlyWhenARowMatches : Prop :=
  (∀ (w : Word) (i : Instr), decode w = .ok i → w &&& selectorMask i = selectorBits i) ∧
  (∀ (w : Word) (i : Instr), w &&& selectorMask i = selectorBits i →
    ∃ j, decode w = .ok j ∧ selectorMask j = selectorMask i ∧ selectorBits j = selectorBits i) ∧
  ∀ (w : Word) (i j : Instr), w &&& selectorMask i = selectorBits i → w &&& selectorMask j = selectorBits j →
    opc i = opc j ∧ fn i = fn j

/-- 30_encoding.md (positions and numbers PRESUMED, log 8 and 9): every instruction, with every operand at every value its
field admits, is what its own word, and its own four bytes, decode to. -/
def Obligations.DecodeOfEncodeIsTheInstruction : Prop :=
  ∀ (i : Instr) (rest : List Byte), decode (encode i) = .ok i ∧ decodeBytes (encodeBytes i ++ rest) = .ok (i, rest)

/-- Words written out from the table of 30_encoding.md (numbers, positions and field roles PRESUMED, log 8, 9, 10 and 24)
decode to the instructions they stand for. -/
def Obligations.WrittenOutWordsDecode : Prop :=
  decode 0x00221824#32 = .ok (.and 3 1 2) ∧ decode 0x302200FF#32 = .ok (.andi 2 1 0x00FF) ∧
  decode 0x0022182A#32 = .ok (.slt 3 1 2) ∧ decode 0x2422FFFF#32 = .ok (.addiu 2 1 0xFFFF) ∧
  decode 0x70231820#32 = .ok (.clz 3 1) ∧ decode 0x3C021234#32 = .ok (.lui 2 0x1234) ∧
  decode 0x03E00008#32 = .ok (.jr 31) ∧ decode 0x0C100040#32 = .ok (.jal 0x0100040) ∧
  decode 0x1C20FFFE#32 = .ok (.bgtz 1 0xFFFE) ∧ decode 0x8C22FFFC#32 = .ok (.lw 2 1 0xFFFC) ∧
  decode 0xAC220001#32 = .ok (.sw 2 1 1) ∧ decode 0x02AF378C#32 = .ok .syscall ∧
  decode 0x00000000#32 = .error (.function 0 0) ∧ decode 0x08100040#32 = .error (.opcode 2)

/-- 30_encoding.md section 5 (the numbers of the rows of its section 4 are PRESUMED, D1, log 8): a word that matches no
row of the table is a silent no-op; PC advances by 4. -/
def Obligations.UnrecognizedWordIsSilentNoOp : Prop :=
  ∀ s : State, s.pc.toNat % 4 = 0 → (∀ i : Instr, s.fetchAt s.pc &&& selectorMask i ≠ selectorBits i) →
    step s = .next { s with pc := s.pc + 4, events := [] }

/-- 30_encoding.md section 3: the values of the immediate operands. -/
def Obligations.ImmediateOperandValues : Prop :=
  ∀ imm : Imm16, (zext16 imm).toNat = imm.toNat ∧ (sext16 imm).toInt = imm.toInt ∧
    (upperImm imm).toNat = imm.toNat * 2 ^ 16 ∧ (branchOffset imm).toInt = 4 * imm.toInt ∧
    ((sext16 imm).toNat ≤ 0x7FFF ∨ 0xFFFF8000 ≤ (sext16 imm).toNat)

/-! ### The ordinary instructions -/

/-- R130: the seven logical instructions, whole: the result, its destination and their frame. -/
def Obligations.LogicalInstructions : Prop :=
  ∀ (s : State) (rd rs rt : Reg) (imm : Imm16),
    (∃ t, exec (.and rd rs rt) s = .next t ∧ OnlyRegister s t rd (s.x rs &&& s.x rt)) ∧
    (∃ t, exec (.or rd rs rt) s = .next t ∧ OnlyRegister s t rd (s.x rs ||| s.x rt)) ∧
    (∃ t, exec (.xor rd rs rt) s = .next t ∧ OnlyRegister s t rd (s.x rs ^^^ s.x rt)) ∧
    (∃ t, exec (.nor rd rs rt) s = .next t ∧ OnlyRegister s t rd (~~~(s.x rs ||| s.x rt))) ∧
    (∃ t, exec (.andi rt rs imm) s = .next t ∧ OnlyRegister s t rt (s.x rs &&& imm.setWidth 32)) ∧
    (∃ t, exec (.ori rt rs imm) s = .next t ∧ OnlyRegister s t rt (s.x rs ||| imm.setWidth 32)) ∧
    (∃ t, exec (.xori rt rs imm) s = .next t ∧ OnlyRegister s t rt (s.x rs ^^^ imm.setWidth 32))

/-- 42_compare.md: SLT, SLTI, SLTIU write 1 or 0 and change nothing else. -/
def Obligations.CompareInstructions : Prop :=
  ∀ (s : State) (rd rs rt : Reg) (imm : Imm16),
    (∃ t, exec (.slt rd rs rt) s = .next t ∧
      OnlyRegister s t rd (if (s.x rs).toInt < (s.x rt).toInt then 1 else 0)) ∧
    (∃ t, exec (.slti rt rs imm) s = .next t ∧ OnlyRegister s t rt (if (s.x rs).toInt < imm.toInt then 1 else 0)) ∧
    (∃ t, exec (.sltiu rt rs imm) s = .next t ∧
      OnlyRegister s t rt (if (s.x rs).toNat < (imm.signExtend 32).toNat then 1 else 0))

/-- 43_arithmetic.md: ADDU, ADDIU and SUBU compute modulo 2^32, always write, and change nothing else. -/
def Obligations.WraparoundArithmetic : Prop :=
  ∀ (s : State) (rd rs rt : Reg) (imm : Imm16),
    (∃ t, exec (.addu rd rs rt) s = .next t ∧
      OnlyRegister s t rd (BitVec.ofNat 32 ((s.x rs).toNat + (s.x rt).toNat))) ∧
    (∃ t, exec (.addiu rt rs imm) s = .next t ∧
      OnlyRegister s t rt (BitVec.ofInt 32 ((s.x rs).toNat + imm.toInt))) ∧
    (∃ t, exec (.subu rd rs rt) s = .next t ∧
      OnlyRegister s t rd (BitVec.ofInt 32 ((s.x rs).toNat - (s.x rt).toNat)))

/-- 43_arithmetic.md (the reading of "signed overflow" is D30, log 26): ADD, ADDI and SUB write the exact result when it
fits in 32 bits, and change nothing else. -/
def Obligations.SignedArithmeticThatFits : Prop :=
  ∀ (s : State) (rd rs rt : Reg) (imm : Imm16),
    (-2 ^ 31 ≤ (s.x rs).toInt + (s.x rt).toInt → (s.x rs).toInt + (s.x rt).toInt ≤ 2 ^ 31 - 1 →
      ∃ t, exec (.add rd rs rt) s = .next t ∧ OnlyRegister s t rd (BitVec.ofInt 32 ((s.x rs).toInt + (s.x rt).toInt))) ∧
    (-2 ^ 31 ≤ (s.x rs).toInt + imm.toInt → (s.x rs).toInt + imm.toInt ≤ 2 ^ 31 - 1 →
      ∃ t, exec (.addi rt rs imm) s = .next t ∧ OnlyRegister s t rt (BitVec.ofInt 32 ((s.x rs).toInt + imm.toInt))) ∧
    (-2 ^ 31 ≤ (s.x rs).toInt - (s.x rt).toInt → (s.x rs).toInt - (s.x rt).toInt ≤ 2 ^ 31 - 1 →
      ∃ t, exec (.sub rd rs rt) s = .next t ∧ OnlyRegister s t rd (BitVec.ofInt 32 ((s.x rs).toInt - (s.x rt).toInt)))

/-- 43_arithmetic.md and 60_exceptions.md (D21, D30, log 22 and 26; SUB computing rs minus rt is PRESUMED, G5, log 25):
when the exact result does not fit, ADD, ADDI and SUB record the overflow, suppress the write and complete. -/
def Obligations.SignedOverflowIsRecorded : Prop :=
  ∀ (s : State) (rd rs rt : Reg) (imm : Imm16),
    let Overflowed : Instr → Prop := fun i => ∃ t, exec i s = .next t ∧ RecordsFault s t .overflow ∧
      SameRegisters s t ∧ t.pc = s.pc ∧ SameConstants s t ∧ SameMemory s t
    (((s.x rs).toInt + (s.x rt).toInt < -2 ^ 31 ∨ 2 ^ 31 - 1 < (s.x rs).toInt + (s.x rt).toInt) →
      Overflowed (.add rd rs rt)) ∧
    (((s.x rs).toInt + imm.toInt < -2 ^ 31 ∨ 2 ^ 31 - 1 < (s.x rs).toInt + imm.toInt) → Overflowed (.addi rt rs imm)) ∧
    (((s.x rs).toInt - (s.x rt).toInt < -2 ^ 31 ∨ 2 ^ 31 - 1 < (s.x rs).toInt - (s.x rt).toInt) →
      Overflowed (.sub rd rs rt))

/-- 43_arithmetic.md section of the laws: the bit test of overflow agrees with the exact one, and a signed form writes the
bits the unsigned form would write. -/
def Obligations.OverflowBitTestAgrees : Prop :=
  ∀ a b : Word,
    (fitsSigned (exactAdd a b) = false ↔ a.msb = b.msb ∧ (a + b).msb ≠ a.msb) ∧
    (fitsSigned (exactSub a b) = false ↔ a.msb ≠ b.msb ∧ (a - b).msb ≠ a.msb) ∧
    BitVec.ofInt 32 (exactAdd a b) = a + b ∧ BitVec.ofInt 32 (exactSub a b) = a - b

/-- R155: CLZ, CLO, LUI, MOVZ and MOVN change at most their destination register and do not depend on PC; `popcount` is the
number of one bits. -/
def Obligations.CountAndMoveFrames : Prop :=
  (∀ (i : Instr) (s : State) (rd rs rt : Reg) (imm : Imm16),
    i ∈ [Instr.clz rd rs, .clo rd rs, .lui rt imm, .movz rd rs rt, .movn rd rs rt] →
    ∃ t, exec i s = .next t ∧ (∃ r v, destination i = some r ∧ OnlyRegister s t r v) ∧
      ∀ p, exec i { s with pc := p } = .next { t with pc := p }) ∧
  ∀ v : Word, popcount v = (Finset.univ.filter fun k : Fin 32 => v.getLsbD k = true).card ∧ popcount v ≤ 32

/-- 44_bitcount_lui_move.md: what CLZ and CLO write (BITCOUNT = population, D5, log 11; the fields are D4, log 10), LUI, and
MOVZ and MOVN when they move and when they do not. -/
def Obligations.CountAndMoveResults : Prop :=
  ∀ (s : State) (rd rs rt : Reg) (imm : Imm16),
    let ones : Word → Nat := fun v => (Finset.univ.filter fun k : Fin 32 => v.getLsbD k = true).card
    (∃ t, exec (.clz rd rs) s = .next t ∧ OnlyRegister s t rd (BitVec.ofNat 32 (ones (s.x rs)))) ∧
    (∃ t, exec (.clo rd rs) s = .next t ∧ OnlyRegister s t rd (BitVec.ofNat 32 (ones (~~~(s.x rs))))) ∧
    (∃ t, exec (.lui rt imm) s = .next t ∧ OnlyRegister s t rt (BitVec.ofNat 32 (imm.toNat * 2 ^ 16))) ∧
    (s.x rt = 0 → ∃ t, exec (.movz rd rs rt) s = .next t ∧ OnlyRegister s t rd (s.x rs)) ∧
    (s.x rt ≠ 0 → exec (.movz rd rs rt) s = .next s) ∧
    (s.x rt ≠ 0 → ∃ t, exec (.movn rd rs rt) s = .next t ∧ OnlyRegister s t rd (s.x rs)) ∧
    (s.x rt = 0 → exec (.movn rd rs rt) s = .next s)

/-- 46_load_store.md (field roles PRESUMED, D25, log 24; addresses wrap, D16, log 21): LB at every address, LH and LW at
aligned ones, and their frame. -/
def Obligations.AlignedLoads : Prop :=
  ∀ (s : State) (rt rs : Reg) (imm : Imm16),
    let ea := s.x rs + imm.signExtend 32
    (∃ t, exec (.lb rt rs imm) s = .next t ∧ OnlyRegister s t rt ((readByte s.mem ea).signExtend 32)) ∧
    (ea.toNat % 2 = 0 → ∃ t, exec (.lh rt rs imm) s = .next t ∧
      OnlyRegister s t rt ((readByte s.mem (ea + 1) ++ readByte s.mem ea : BitVec 16).signExtend 32)) ∧
    (ea.toNat % 4 = 0 → ∃ t, exec (.lw rt rs imm) s = .next t ∧
      OnlyRegister s t rt (readByte s.mem (ea + 3) ++ readByte s.mem (ea + 2) ++ readByte s.mem (ea + 1) ++
        readByte s.mem ea))

/-- 46_load_store.md and 60_exceptions.md (D16, D21, D25, log 21, 22 and 24): a misaligned LH or LW records the alignment
fault and still loads from the misaligned address. -/
def Obligations.MisalignedLoadsStillLoad : Prop :=
  ∀ (s : State) (rt rs : Reg) (imm : Imm16),
    let ea := s.x rs + imm.signExtend 32
    (ea.toNat % 2 ≠ 0 → ∃ t, exec (.lh rt rs imm) s = .next t ∧ RecordsFault s t (.alignment ea .load) ∧
      RegisterReceives s t rt ((readByte s.mem (ea + 1) ++ readByte s.mem ea : BitVec 16).signExtend 32) ∧
      t.pc = s.pc ∧ SameConstants s t ∧ SameMemory s t) ∧
    (ea.toNat % 4 ≠ 0 → ∃ t, exec (.lw rt rs imm) s = .next t ∧ RecordsFault s t (.alignment ea .load) ∧
      RegisterReceives s t rt (readByte s.mem (ea + 3) ++ readByte s.mem (ea + 2) ++ readByte s.mem (ea + 1) ++
        readByte s.mem ea) ∧
      t.pc = s.pc ∧ SameConstants s t ∧ SameMemory s t)

/-- 46_load_store.md (field roles PRESUMED, D25, log 24; addresses wrap, D16, log 21; a misaligned store
records its fault, D21, log 22): SW stores the
four bytes of x[rt] at its effective address, little-endian, and no other byte changes. -/
def Obligations.StoreWord : Prop :=
  ∀ (s : State) (rt rs : Reg) (imm : Imm16), Memory.wf s.mem = true →
    let ea := effectiveAddress s rs imm
    ∃ t, exec (.sw rt rs imm) s = .next t ∧ ea = s.x rs + imm.signExtend 32 ∧
      readByte t.mem ea = (s.x rt).extractLsb' 0 8 ∧ readByte t.mem (ea + 1) = (s.x rt).extractLsb' 8 8 ∧
      readByte t.mem (ea + 2) = (s.x rt).extractLsb' 16 8 ∧ readByte t.mem (ea + 3) = (s.x rt).extractLsb' 24 8 ∧
      SameMemoryOutside s t ea 4 ∧ SameRegisters s t ∧ SameConstants s t ∧ t.pc = s.pc ∧
      (ea.toNat % 4 = 0 → SameFaultRegisters s t ∧ t.events = s.events) ∧
      (ea.toNat % 4 ≠ 0 → RecordsFault s t (.alignment ea .store))

/-- 46_load_store.md and 20_memory.md section 2 (the roles of the fields of SW and LW are PRESUMED, D25, log 24; that an
access wraps at the top is D16, log 21): a word stored at any address, aligned or not, wrapping or not, is the word loaded
from it. -/
def Obligations.LoadGivesBackTheStoredWord : Prop :=
  ∀ (s t u : State) (rt rs rt' rs' : Reg) (imm imm' : Imm16), Memory.wf s.mem = true →
    exec (.sw rt rs imm) s = .next t → effectiveAddress t rs' imm' = effectiveAddress s rs imm →
    exec (.lw rt' rs' imm') t = .next u → rt' ≠ 0 → u.x rt' = s.x rt

/-- 47_system_and_unrecognized.md (the form of the event is D23, log 7): SYSCALL emits one event with its own address and
changes nothing else. -/
def Obligations.SyscallOnlyEmits : Prop :=
  ∀ s : State, exec .syscall s = .next { s with events := s.events ++ [.syscall s.pc] }

/-! ### Faults (60_exceptions.md) -/

/-- 60_exceptions.md R200 (that the record is EPC from PC and Cause from `causeCode` is D21, log 22; the exception below is
D13, log 18): a fault is recorded and nothing else: `signal` saves the PC and the cause, and redirects nothing and halts
nothing; every instruction completes whatever it, or its slot, signals, and only a control transfer changes PC. (The one
thing that keeps an instruction from completing is no fault: a control transfer in a slot.) -/
def Obligations.FaultsNeverRedirectOrHalt : Prop :=
  (∀ (s : State) (k : FaultKind), (s.signal k).epc = s.pc ∧ (s.signal k).cause = Config.causeCode k ∧
    (s.signal k).pc = s.pc ∧ SameRegisters s (s.signal k) ∧ SameMemory s (s.signal k) ∧
    SameConstants s (s.signal k)) ∧
  (∀ (s : State) (i : Instr), i.isTransfer = false → ∃ t, exec i s = .next t ∧ t.pc = s.pc) ∧
  ∀ (s : State) (i : Instr), (i.isDelayedTransfer = true → (inSlot s).any Instr.isTransfer = false) →
    ∃ t, exec i s = .next t

/-- 60_exceptions.md section 1 (D22, log 23): the three cause codes differ, and do not depend on the address. -/
def Obligations.CauseCodesAreDistinct : Prop :=
  ∀ a b : Word, Config.causeCode (.alignment a .load) ≠ Config.causeCode (.alignment b .store) ∧
    Config.causeCode (.alignment a .load) ≠ Config.causeCode .overflow ∧
    Config.causeCode (.alignment a .store) ≠ Config.causeCode .overflow ∧
    Config.causeCode (.alignment a .load) = Config.causeCode (.alignment b .load) ∧
    Config.causeCode (.alignment a .store) = Config.causeCode (.alignment b .store)

/-- 60_exceptions.md section 1 (D9, D21, log 16 and 22; the form of the event is D23, log 7), over a whole step: a step
that signals nothing leaves the four fault registers as they were; a fault it signals carries the address of the
instruction that raised it, A + 4 in a delay slot and A otherwise, and EPC, Cause and BadVAddr are that fault's. -/
def Obligations.FaultRegistersDescribeTheLastFault : Prop :=
  ∀ s t : State, step s = .next t →
    (NoFault t → SameFaultRegisters s t) ∧
    ∀ (k : FaultKind) (pc : Word), Event.faultSignal k pc ∈ t.events →
      t.events = [.faultSignal k pc] ∧ pc = workerPc s ∧ t.epc = pc ∧ t.cause = Config.causeCode k ∧
        t.status = s.status ∧ t.badVAddr = (match k with | .alignment a _ => a | .overflow => s.badVAddr)

/-- 60_exceptions.md section 1 (the address A + 4 of a slot's instruction is D9, log 16; the base register of the
effective address is PRESUMED, D25, log 24; the form of the events is D23, log 7), over a whole step: what signals. An
overflow comes from ADD, ADDI or SUB, an alignment fault of a load from LH or LW, of a store from SW, a SYSCALL event from
SYSCALL, each with the address of its instruction. -/
def Obligations.EventsComeFromTheirInstructions : Prop :=
  ∀ (s t : State) (e : Event), step s = .next t → e ∈ t.events →
    (e = .syscall (workerPc s) ∧ worker s = some .syscall) ∨
    (e = .faultSignal .overflow (workerPc s) ∧ ∃ rd rs rt imm,
      worker s = some (.add rd rs rt) ∨ worker s = some (.addi rt rs imm) ∨ worker s = some (.sub rd rs rt)) ∨
    (∃ rt rs imm, e = .faultSignal (.alignment (effectiveAddress s rs imm) .load) (workerPc s) ∧
      (worker s = some (.lh rt rs imm) ∨ worker s = some (.lw rt rs imm))) ∨
    (∃ rt rs imm, e = .faultSignal (.alignment (effectiveAddress s rs imm) .store) (workerPc s) ∧
      worker s = some (.sw rt rs imm))

/-! ### The step and the control transfers (40_step_cycle.md, 45_control_transfer.md) -/

/-- 40_step_cycle.md section 4: at an aligned PC a step is the decoded instruction's handler on the state with an empty
event list, and then PC plus 4; the handler of an instruction in a slot is the instruction's own. -/
def Obligations.StepRunsTheDecodedInstruction : Prop :=
  (∀ (s : State) (i : Instr), s.pc.toNat % 4 = 0 → decode (readWord s.mem s.pc) = .ok i →
    step s = thenNext (exec i { s with events := [] }) fun t => { t with pc := t.pc + 4 }) ∧
  ∀ (i : Instr) (s : State), i.isTransfer = false → execOrdinary i s = exec i s

/-- 45_control_transfer.md: JR writes its register, less the 4 the step adds, to PC, and changes nothing else; it runs no
slot. -/
def Obligations.JumpRegister : Prop :=
  ∀ (s : State) (rs : Reg), ∃ t, exec (.jr rs) s = .next t ∧ OnlyPc s t (s.x rs - 4)

/-- 45_control_transfer.md (D6, D8, D9, D11, D12, log 12, 13, 15, 16): JAL runs its slot, then links A + 8 in r31, then
jumps within the region of A + 4; everything else is as the slot left it. PC is the target less the 4 the step adds. -/
def Obligations.JumpAndLink : Prop :=
  ∀ (s : State) (idx : Index26), (inSlot s).any Instr.isTransfer = false →
    ∃ u t, SlotRuns s u ∧ exec (.jal idx) s = .next t ∧ RegisterReceives u t 31 (s.pc + 8) ∧
      t.pc = (((s.pc + 4) &&& 0xF0000000#32) ||| (idx.setWidth 32 <<< 2)) - 4 ∧
      SameConstants u t ∧ SameFaultRegisters u t ∧ SameMemory u t ∧ t.events = u.events

/-- 45_control_transfer.md (D7, D8, D9, D10, log 14 to 17): BGTZ runs its slot, then tests its register as the slot left it,
signed greater than zero; taken, PC becomes A + 4*imm less the 4 the step adds; not taken, it stays A + 4; nothing else
changes. -/
def Obligations.BranchOnGreaterThanZero : Prop :=
  ∀ (s : State) (rs : Reg) (imm : Imm16), (inSlot s).any Instr.isTransfer = false →
    ∃ u, SlotRuns s u ∧
      (0 < (u.x rs).toInt → ∃ t, exec (.bgtz rs imm) s = .next t ∧
        OnlyPc u t (s.pc + (imm.signExtend 32 <<< 2) - 4)) ∧
      ((u.x rs).toInt ≤ 0 → ∃ t, exec (.bgtz rs imm) s = .next t ∧ OnlyPc u t (s.pc + 4))

/-- 40_step_cycle.md section 2 (D13, log 18): a JAL or BGTZ whose slot holds a JR, JAL or BGTZ is refused, taken or not. -/
def Obligations.TransferInDelaySlotIsRefused : Prop :=
  ∀ (s : State) (i : Instr), i.isDelayedTransfer = true → (inSlot s).any Instr.isTransfer = true →
    exec i s = .refused .transferInDelaySlot

/-- 40_step_cycle.md R119 (JAL: D6, D12, log 12; BGTZ: the signed test D7, log 14, read after the slot D8, log 15, PC + 8
from the nested step D9, log 16, its own address as base D10, log 17): where every step leaves PC. -/
def Obligations.NextPcOfEveryStep : Prop :=
  ∀ s t : State, step s = .next t →
    (current s = none → t.pc = s.pc + 4) ∧
    (∀ i, current s = some i → i.isTransfer = false → t.pc = s.pc + 4) ∧
    (∀ rs, current s = some (.jr rs) → t.pc = s.x rs) ∧
    (∀ idx, current s = some (.jal idx) →
      t.pc = ((s.pc + 4) &&& 0xF0000000#32) ||| (idx.setWidth 32 <<< 2)) ∧
    ∀ rs imm, current s = some (.bgtz rs imm) → ∃ u, SlotRuns { s with events := [] } u ∧
      t.pc = if 0 < (u.x rs).toInt then s.pc + (imm.signExtend 32 <<< 2) else s.pc + 8

/-- 45_control_transfer.md (the order is D8, log 15; the link A + 8 is D11, log 13; the signed test is D7, log 14; PC + 8 is
D9, log 16; a taken branch counts from the BGTZ's own address, D10, log 17): the slot decides the branch, and JAL
overwrites what its slot writes to r31. A slot that writes r0 writes nothing, so a BGTZ on r0 is not taken. -/
def Obligations.SlotActsBeforeItsTransfer : Prop :=
  ∀ (s t : State) (r q : Reg) (d : Imm16) (imm : Imm16) (idx : Index26),
    inSlot s = some (.addiu r q d) → step s = .next t →
    let v : Word := if r = 0 then 0 else s.x q + d.signExtend 32
    (current s = some (.bgtz r imm) → t.x r = v ∧
      t.pc = if 0 < v.toInt then s.pc + (imm.signExtend 32 <<< 2) else s.pc + 8) ∧
    (current s = some (.jal idx) → t.x 31 = s.pc + 8 ∧ (r ≠ 31 → t.x r = v))

/-- 45_control_transfer.md (D6, D12, log 12): with the operator OR the target is pc[31:28] ∥ idx ∥ 00, a multiple of 4; with
the operator AND, which the source reports as observed, it is 0 for every input. -/
def Obligations.JalTargetJoinsRegionAndIndex : Prop :=
  ∀ (pc : Word) (idx : Index26),
    combine .or (regionBits pc) (indexShifted idx) = pc.extractLsb' 28 4 ++ idx ++ 0#2 ∧
    (combine .or (regionBits pc) (indexShifted idx)).toNat % 4 = 0 ∧
    combine .and (regionBits pc) (indexShifted idx) = 0

/-- 40_step_cycle.md section 3 (D13, D14, log 18 and 19): every step has exactly one of three outcomes, told by its start: a
next state, or one of the two refusals. Nothing else stops the machine. -/
def Obligations.EveryStepCompletesOrIsRefused : Prop :=
  ∀ s : State, (Ready s ↔ ∃ t, step s = .next t) ∧
    (s.pc.toNat % 4 ≠ 0 → step s = .refused .misalignedPC) ∧
    (s.pc.toNat % 4 = 0 → TransferInSlot s → step s = .refused .transferInDelaySlot)

/-- 10_state.md section 2 (D14, log 19; the targets of JAL and BGTZ are D10 and D12, log 12 and 17): every step but JR's
leaves PC a multiple of 4. -/
def Obligations.OnlyJumpRegisterMisalignsPc : Prop :=
  ∀ s t : State, step s = .next t → (∀ rs, current s ≠ some (.jr rs)) → t.pc.toNat % 4 = 0

/-- The invariant holds at power-on (its constants are D19 and D20, log 4 and 5; the memory's form is log 37). -/
def Obligations.InvariantAtPowerOn : Prop := Inv State.reset

/-- Every step, from every state that meets the invariant, keeps it: memory in canonical form, HI, LO and Status at their
constants (D19, D20, D21, log 4, 5, 22), at most one event (log 7). The memory's form is log 37. -/
def Obligations.StepKeepsTheInvariant : Prop := ∀ s t : State, Inv s → step s = .next t → Inv t

/-- The invariant holds of every state a host can bring the machine to, whatever images it loads and whenever it resets.
What a host can do, `Reachable`, is D34, log 30; the constants of `Inv` are D19, D20 and D21, log 4, 5 and 22. -/
def Obligations.EveryReachableStateMeetsTheInvariant : Prop := ∀ s : State, Reachable s → Inv s

/-- 10_state.md sections 3, 5 and 7: no instruction reads HI, LO, a fault register or the event list. Two states that
agree on the general registers, PC and memory take the same step: the same outcome, the same events, and states that agree
again. -/
def Obligations.FaultRecordIsInvisibleToPrograms : Prop :=
  ∀ s s' : State, SameProgramView s s' →
    (∀ t, step s = .next t → ∃ t', step s' = .next t' ∧ SameProgramView t t' ∧ t'.events = t.events) ∧
    ∀ r, step s = .refused r → step s' = .refused r

/-! ### Reset and the host (70_reset_and_hazards.md) -/

/-- 10_state.md section 8 (the numerals and the power-on values are the model's and the spec's choices: D17 to D20, log 1,
2, 4, 5, 6): the state at power-on, and PC is aligned. -/
def Obligations.PowerOnState : Prop :=
  (∀ r : Reg, State.reset.x r = if r = 29 then Config.stackInit else 0) ∧ State.reset.pc = Config.textBase ∧
    Config.textBase.toNat % 4 = 0 ∧ State.reset.hi = Config.hiInit ∧ State.reset.lo = Config.loInit ∧
    State.reset.readFaultRegisters = (0, 0, 0, 0) ∧ (∀ a, readByte State.reset.mem a = 0) ∧ State.reset.events = []

/-- 70_reset_and_hazards.md section 1 (D20, log 5): `reset()` gives the general registers and PC their power-on values and
changes nothing else. -/
def Obligations.ResetOperation : Prop :=
  ∀ s : State, ∃ t, hostDo .reset s = .next t ∧ (∀ r : Reg, t.x r = if r = 29 then Config.stackInit else 0) ∧
    t.pc = Config.textBase ∧ SameConstants s t ∧ SameFaultRegisters s t ∧ t.mem = s.mem ∧ t.events = s.events

/-- 20_memory.md section 8 and 30_encoding.md section 1 (numbers and positions PRESUMED, log 8 and 9; the load is log 29):
the bytes of an instruction loaded at PC are what is fetched there, and decode to it, whatever else memory holds; at an
aligned PC the next step runs it, from the loaded state. `withFetchWord` is the same load. -/
def Obligations.LoadedInstructionIsTheNextToRun : Prop :=
  ∀ (s : State) (i : Instr), Memory.wf s.mem = true →
    let s' := s.loadSegment (encodeBytes i) s.pc
    s'.fetchAt s.pc = encode i ∧ current s' = some i ∧ s.withFetchWord 32 (encode i).toNat = s' ∧
    (s.pc.toNat % 4 = 0 →
      step s' = thenNext (exec i { s' with events := [] }) fun t => { t with pc := t.pc + 4 })

/-- 40_step_cycle.md section 5 (D17, log 6; PC wraps, D15, log 20): with nothing written in memory the machine walks
through it, 4 bytes a step, wrapping at the top, and nothing else changes. -/
def Obligations.EmptyMemoryIsWalkedThrough : Prop :=
  ∀ (s : State) (n : Nat), s.mem = [] → s.pc.toNat % 4 = 0 →
    Host.Core.run core (n + 1) s = .next { s with pc := s.pc + BitVec.ofNat 32 (4 * (n + 1)), events := [] }
end

