-- ==== Sys2Proof/Laws/Decode.lean ====
section
/-! SUPPORT. The fields of the words the encoder builds (30_encoding.md R81, R83), and what a decoded instruction says of its
word. -/

namespace Sys2Proof

section fields
variable (op f : BitVec 6) (rs rt rd : Reg) (sh : BitVec 5) (imm : Imm16) (idx : Index26)

@[simp] theorem opcodeOf_rWord : opcodeOf (rWord op rs rt rd sh f) = op := by
  unfold opcodeOf rWord; ext i hi; simp; grind
@[simp] theorem rsOf_rWord : rsOf (rWord op rs rt rd sh f) = rs := by
  unfold rsOf rWord; ext i hi; simp; grind
@[simp] theorem rtOf_rWord : rtOf (rWord op rs rt rd sh f) = rt := by
  unfold rtOf rWord; ext i hi; simp; grind
@[simp] theorem rdOf_rWord : rdOf (rWord op rs rt rd sh f) = rd := by
  unfold rdOf rWord; ext i hi; simp; grind
@[simp] theorem functOf_rWord : functOf (rWord op rs rt rd sh f) = f := by
  unfold functOf rWord; ext i hi; simp; grind
@[simp] theorem opcodeOf_iWord : opcodeOf (iWord op rs rt imm) = op := by
  unfold opcodeOf iWord; ext i hi; simp; grind
@[simp] theorem rsOf_iWord : rsOf (iWord op rs rt imm) = rs := by
  unfold rsOf iWord; ext i hi; simp; grind
@[simp] theorem rtOf_iWord : rtOf (iWord op rs rt imm) = rt := by
  unfold rtOf iWord; ext i hi; simp; grind
@[simp] theorem immOf_iWord : immOf (iWord op rs rt imm) = imm := by
  unfold immOf iWord; ext i hi; simp; grind
@[simp] theorem opcodeOf_jWord : opcodeOf (jWord op idx) = op := by
  unfold opcodeOf jWord; ext i hi; simp; grind
/-- The index rebuilt from the fields of a J-format word is the index (R87). -/
@[simp] theorem jalIndex_jWord : jalIndex (rsOf (jWord op idx)) (rtOf (jWord op idx)) (immOf (jWord op idx)) = idx := by
  unfold jalIndex rsOf rtOf immOf jWord; ext i hi; simp; grind
end fields

/-- The descriptor of a word under SPECIAL or SPECIAL2 (R82). -/
theorem describe_special (w : Word) (h : isSpecial (opcodeOf w) = true) :
    describe w = ⟨opcodeOf w, rsOf w, rtOf w, .register (rdOf w) (functOf w)⟩ := by
  simp [describe, h]

/-- The descriptor of any other word (R82). -/
theorem describe_direct (w : Word) (h : isSpecial (opcodeOf w) = false) :
    describe w = ⟨opcodeOf w, rsOf w, rtOf w, .immediate (immOf w)⟩ := by
  simp [describe, h]

/-- The selector of a decoded instruction is the word's: its opcode, and its function code exactly when the opcode is one
that selects by function code (R84). -/
theorem decode_selector {w : Word} {i : Instr} (h : decode w = .ok i) :
    opc i = opcodeOf w ∧ fn i = if isSpecial (opcodeOf w) then some (functOf w) else none := by
  unfold decode at h
  by_cases hs : isSpecial (opcodeOf w) = true
  · rw [describe_special w hs] at h
    simp only [select] at h
    split at h
    · next j hj =>
      cases h
      have := List.find?_some hj
      simp only [Bool.and_eq_true, beq_iff_eq] at this
      simp [hs, this.1, this.2]
    · cases h
  · have hs : isSpecial (opcodeOf w) = false := by simpa using hs
    rw [describe_direct w hs] at h
    simp only [select] at h
    split at h
    · next j hj =>
      cases h
      have h1 := List.find?_some hj
      have h2 := List.mem_of_find?_eq_some hj
      simp only [beq_iff_eq] at h1
      refine ⟨h1, ?_⟩
      rw [hs]
      simp only [immediateForms, List.mem_cons, List.not_mem_nil, or_false] at h2
      rcases h2 with rfl | rfl | rfl | rfl | rfl | rfl | rfl | rfl | rfl | rfl | rfl | rfl | rfl | rfl <;> rfl
    · cases h

end Sys2Proof
end

