-- ==== Sys2Proof/Laws/State.lean ====
section
/-! SUPPORT. One lemma per field per update of State: no later proof unfolds a record update. -/

namespace Sys2Proof.Machine

section setPc
variable (s : State) (v : Word)
@[simp] theorem State.setPc_regs : (s.setPc v).regs = s.regs := rfl
@[simp] theorem State.setPc_pc : (s.setPc v).pc = v := rfl
@[simp] theorem State.setPc_hi : (s.setPc v).hi = s.hi := rfl
@[simp] theorem State.setPc_lo : (s.setPc v).lo = s.lo := rfl
@[simp] theorem State.setPc_badVAddr : (s.setPc v).badVAddr = s.badVAddr := rfl
@[simp] theorem State.setPc_status : (s.setPc v).status = s.status := rfl
@[simp] theorem State.setPc_cause : (s.setPc v).cause = s.cause := rfl
@[simp] theorem State.setPc_epc : (s.setPc v).epc = s.epc := rfl
@[simp] theorem State.setPc_mem : (s.setPc v).mem = s.mem := rfl
@[simp] theorem State.setPc_events : (s.setPc v).events = s.events := rfl
end setPc

section advance
variable (s : State)
@[simp] theorem State.advance_regs : s.advance.regs = s.regs := rfl
@[simp] theorem State.advance_pc : s.advance.pc = s.pc + 4 := rfl
@[simp] theorem State.advance_hi : s.advance.hi = s.hi := rfl
@[simp] theorem State.advance_lo : s.advance.lo = s.lo := rfl
@[simp] theorem State.advance_badVAddr : s.advance.badVAddr = s.badVAddr := rfl
@[simp] theorem State.advance_status : s.advance.status = s.status := rfl
@[simp] theorem State.advance_cause : s.advance.cause = s.cause := rfl
@[simp] theorem State.advance_epc : s.advance.epc = s.epc := rfl
@[simp] theorem State.advance_mem : s.advance.mem = s.mem := rfl
@[simp] theorem State.advance_events : s.advance.events = s.events := rfl
end advance

section beginStep
variable (s : State)
@[simp] theorem State.beginStep_regs : s.beginStep.regs = s.regs := rfl
@[simp] theorem State.beginStep_pc : s.beginStep.pc = s.pc := rfl
@[simp] theorem State.beginStep_hi : s.beginStep.hi = s.hi := rfl
@[simp] theorem State.beginStep_lo : s.beginStep.lo = s.lo := rfl
@[simp] theorem State.beginStep_badVAddr : s.beginStep.badVAddr = s.badVAddr := rfl
@[simp] theorem State.beginStep_status : s.beginStep.status = s.status := rfl
@[simp] theorem State.beginStep_cause : s.beginStep.cause = s.cause := rfl
@[simp] theorem State.beginStep_epc : s.beginStep.epc = s.epc := rfl
@[simp] theorem State.beginStep_mem : s.beginStep.mem = s.mem := rfl
@[simp] theorem State.beginStep_events : s.beginStep.events = [] := rfl
end beginStep

section emit
variable (s : State) (e : Event)
@[simp] theorem State.emit_regs : (s.emit e).regs = s.regs := rfl
@[simp] theorem State.emit_pc : (s.emit e).pc = s.pc := rfl
@[simp] theorem State.emit_hi : (s.emit e).hi = s.hi := rfl
@[simp] theorem State.emit_lo : (s.emit e).lo = s.lo := rfl
@[simp] theorem State.emit_badVAddr : (s.emit e).badVAddr = s.badVAddr := rfl
@[simp] theorem State.emit_status : (s.emit e).status = s.status := rfl
@[simp] theorem State.emit_cause : (s.emit e).cause = s.cause := rfl
@[simp] theorem State.emit_epc : (s.emit e).epc = s.epc := rfl
@[simp] theorem State.emit_mem : (s.emit e).mem = s.mem := rfl
@[simp] theorem State.emit_events : (s.emit e).events = s.events ++ [e] := rfl
end emit

section signal
variable (s : State) (k : FaultKind)
@[simp] theorem State.signal_regs : (s.signal k).regs = s.regs := rfl
@[simp] theorem State.signal_pc : (s.signal k).pc = s.pc := rfl
@[simp] theorem State.signal_hi : (s.signal k).hi = s.hi := rfl
@[simp] theorem State.signal_lo : (s.signal k).lo = s.lo := rfl
@[simp] theorem State.signal_badVAddr : (s.signal k).badVAddr = badVAddrAfter k s.badVAddr := rfl
@[simp] theorem State.signal_status : (s.signal k).status = s.status := rfl
@[simp] theorem State.signal_cause : (s.signal k).cause = Config.causeCode k := rfl
@[simp] theorem State.signal_epc : (s.signal k).epc = s.pc := rfl
@[simp] theorem State.signal_mem : (s.signal k).mem = s.mem := rfl
@[simp] theorem State.signal_events : (s.signal k).events = s.events ++ [.faultSignal k s.pc] := rfl
@[simp] theorem badVAddrAfter_alignment (a : Word) (c : Access) (old : Word) :
    badVAddrAfter (.alignment a c) old = a := rfl
@[simp] theorem badVAddrAfter_overflow (old : Word) : badVAddrAfter .overflow old = old := rfl
end signal

section setX
variable (s : State) (r : Reg) (v : Word)
@[simp] theorem State.setX_pc : (s.setX r v).pc = s.pc := by
  have := r.isLt
  unfold State.setX State.set; split <;> [rfl; (split <;> [omega; rfl])]
@[simp] theorem State.setX_hi : (s.setX r v).hi = s.hi := by unfold State.setX State.set; split <;> [rfl; (split <;> rfl)]
@[simp] theorem State.setX_lo : (s.setX r v).lo = s.lo := by unfold State.setX State.set; split <;> [rfl; (split <;> rfl)]
@[simp] theorem State.setX_badVAddr : (s.setX r v).badVAddr = s.badVAddr := by
  unfold State.setX State.set; split <;> [rfl; (split <;> rfl)]
@[simp] theorem State.setX_status : (s.setX r v).status = s.status := by
  unfold State.setX State.set; split <;> [rfl; (split <;> rfl)]
@[simp] theorem State.setX_cause : (s.setX r v).cause = s.cause := by
  unfold State.setX State.set; split <;> [rfl; (split <;> rfl)]
@[simp] theorem State.setX_epc : (s.setX r v).epc = s.epc := by
  unfold State.setX State.set; split <;> [rfl; (split <;> rfl)]
@[simp] theorem State.setX_mem : (s.setX r v).mem = s.mem := by
  unfold State.setX State.set; split <;> [rfl; (split <;> rfl)]
@[simp] theorem State.setX_events : (s.setX r v).events = s.events := by
  unfold State.setX State.set; split <;> [rfl; (split <;> rfl)]
end setX

section host
variable (s : State) (bytes : List Byte) (base : Word)
@[simp] theorem State.loadSegment_mem : (s.loadSegment bytes base).mem = writeBytes s.mem base bytes := rfl
@[simp] theorem State.loadSegment_regs : (s.loadSegment bytes base).regs = s.regs := rfl
@[simp] theorem State.loadSegment_pc : (s.loadSegment bytes base).pc = s.pc := rfl
@[simp] theorem State.resetOp_regs : s.resetOp.regs = resetRegs := rfl
@[simp] theorem State.resetOp_pc : s.resetOp.pc = Config.textBase := rfl
@[simp] theorem State.resetOp_mem : s.resetOp.mem = s.mem := rfl
end host

section thenNext
variable (f : State → State)
@[simp] theorem thenNext_next (t : State) : thenNext (.next t) f = .next (f t) := rfl
@[simp] theorem thenNext_refused (r : Refusal) : thenNext (.refused r) f = .refused r := rfl
/-- A next state after `thenNext` comes from a next state before it. -/
theorem thenNext_eq_next {o : Result} {f : State → State} {t : State} (h : thenNext o f = .next t) :
    ∃ u, o = .next u ∧ f u = t := by
  cases o with
  | next u => exact ⟨u, rfl, by simpa using h⟩
  | fault r => exact nomatch r
  | refused r => simp [thenNext] at h
end thenNext

end Sys2Proof.Machine
end

