-- ==== Sys2Proof/Laws/Memory.lean ====
section
/-! SUPPORT. The laws of memory (20_memory.md): every operation keeps the canonical form, a byte written is the byte read,
and every other byte stays. -/

namespace Sys2Proof.Machine

/-! ### One byte -/

theorem Memory.wfFrom_mono {lo hi : Nat} {m : Memory} (h : lo ≤ hi) (w : Memory.wfFrom hi m = true) :
    Memory.wfFrom lo m = true := by
  cases m with
  | nil => rfl
  | cons c m =>
    simp only [Memory.wfFrom, Bool.and_eq_true, decide_eq_true_eq] at w ⊢
    exact ⟨⟨⟨Nat.le_trans h w.1.1.1, w.1.1.2⟩, w.1.2⟩, w.2⟩

theorem consCell_wf {lo a : Nat} {b : Byte} {m : Memory} (h1 : lo ≤ a) (h2 : a < 2 ^ 32)
    (w : Memory.wfFrom (a + 1) m = true) : Memory.wfFrom lo (consCell a b m) = true := by
  unfold consCell
  split
  · exact Memory.wfFrom_mono (by omega) w
  · next h =>
    simp only [Memory.wfFrom, Bool.and_eq_true, decide_eq_true_eq]
    exact ⟨⟨⟨h1, h2⟩, h⟩, w⟩

theorem insertByte_wf {m : Memory} {lo a : Nat} (b : Byte) (h1 : lo ≤ a) (h2 : a < 2 ^ 32)
    (w : Memory.wfFrom lo m = true) : Memory.wfFrom lo (insertByte m a b) = true := by
  induction m generalizing lo with
  | nil => exact consCell_wf h1 h2 rfl
  | cons c m ih =>
    obtain ⟨k, c⟩ := c
    simp only [Memory.wfFrom, Bool.and_eq_true, decide_eq_true_eq] at w
    obtain ⟨⟨⟨w1, w2⟩, w3⟩, w4⟩ := w
    unfold insertByte
    split
    · refine consCell_wf h1 h2 ?_
      simp only [Memory.wfFrom, Bool.and_eq_true, decide_eq_true_eq]
      exact ⟨⟨⟨by omega, w2⟩, w3⟩, w4⟩
    · split
      · next h => subst h; exact consCell_wf h1 h2 w4
      · simp only [Memory.wfFrom, Bool.and_eq_true, decide_eq_true_eq]
        exact ⟨⟨⟨w1, w2⟩, w3⟩, ih (by omega) w4⟩

theorem lookup_below {m : Memory} {lo a : Nat} (h : a < lo) (w : Memory.wfFrom lo m = true) :
    lookup m a = Config.unlistedByte := by
  induction m generalizing lo with
  | nil => rfl
  | cons c m ih =>
    obtain ⟨k, c⟩ := c
    simp only [Memory.wfFrom, Bool.and_eq_true, decide_eq_true_eq] at w
    rw [lookup, if_neg (by omega), ih (lo := k + 1) (by omega) w.2]

theorem lookup_consCell {a x : Nat} {b : Byte} {m : Memory} (w : Memory.wfFrom (a + 1) m = true) :
    lookup (consCell a b m) x = if x = a then b else lookup m x := by
  unfold consCell
  split
  · next h =>
    split
    · next e => subst e; rw [lookup_below (by omega) w, h]
    · rfl
  · rfl

theorem lookup_insertByte {m : Memory} {lo : Nat} (a x : Nat) (b : Byte) (w : Memory.wfFrom lo m = true) :
    lookup (insertByte m a b) x = if x = a then b else lookup m x := by
  induction m generalizing lo with
  | nil => exact lookup_consCell rfl
  | cons c m ih =>
    obtain ⟨k, c⟩ := c
    have w0 := w
    simp only [Memory.wfFrom, Bool.and_eq_true, decide_eq_true_eq] at w
    unfold insertByte
    split
    · refine lookup_consCell ?_
      simp only [Memory.wfFrom, Bool.and_eq_true, decide_eq_true_eq]
      exact ⟨⟨⟨by omega, w.1.1.2⟩, w.1.2⟩, w.2⟩
    · split
      · next h =>
        subst h
        rw [lookup_consCell w.2]
        by_cases hx : x = a <;> simp [lookup, hx]
      · rw [lookup, lookup, ih w.2]
        by_cases hx : x = k
        · rw [if_pos hx, if_pos hx, if_neg (by omega)]
        · rw [if_neg hx, if_neg hx]

/-- Writing a byte keeps the canonical form. -/
theorem writeByte_wf {m : Memory} (a : Word) (b : Byte) (w : Memory.wf m = true) :
    Memory.wf (writeByte m a b) = true :=
  insertByte_wf b (Nat.zero_le _) a.isLt w

/-- What a byte reads as after one is written. -/
theorem readByte_writeByte {m : Memory} (a x : Word) (b : Byte) (w : Memory.wf m = true) :
    readByte (writeByte m a b) x = if x = a then b else readByte m x := by
  rw [readByte, writeByte, lookup_insertByte _ _ _ w]
  simp only [readByte, BitVec.toNat_inj]

/-! ### Several bytes -/

/-- Writing bytes keeps the canonical form. -/
theorem writeBytes_wf {m : Memory} (a : Word) (bs : List Byte) (w : Memory.wf m = true) :
    Memory.wf (writeBytes m a bs) = true := by
  induction bs generalizing m a with
  | nil => exact w
  | cons b bs ih => exact ih (a + 1) (writeByte_wf a b w)

/-- The word accessor keeps the canonical form. -/
theorem writeWord_wf {m : Memory} (a v : Word) (w : Memory.wf m = true) : Memory.wf (writeWord m a v) = true :=
  writeBytes_wf a _ w

/-- The distance from the next address. -/
theorem sub_succ_toNat (x a : Word) (h : x ≠ a) : (x - (a + 1)).toNat + 1 = (x - a).toNat := by
  have h0 : x.toNat ≠ a.toNat := fun e => h (BitVec.eq_of_toNat_eq e)
  bv_omega

/-- What a byte reads as after consecutive bytes are written: the byte at its distance from the start, or the byte it
was when it lies outside. -/
theorem readByte_writeBytes {m : Memory} (a x : Word) (bs : List Byte) (w : Memory.wf m = true)
    (hl : bs.length ≤ 2 ^ 32) :
    readByte (writeBytes m a bs) x = (bs[(x - a).toNat]?).getD (readByte m x) := by
  induction bs generalizing m a with
  | nil => rfl
  | cons b bs ih =>
    have hb : bs.length < 2 ^ 32 := by simpa using hl
    rw [writeBytes, ih (a + 1) (writeByte_wf a b w) (by omega), readByte_writeByte a x b w]
    by_cases hx : x = a
    · subst hx
      have e : (x - (x + 1)).toNat = 2 ^ 32 - 1 := by bv_omega
      rw [e, List.getElem?_eq_none (by omega)]
      simp
    · rw [if_neg hx, ← sub_succ_toNat x a hx]
      simp

/-- Bytes outside those written stay (R53). -/
theorem readByte_writeBytes_outside {m : Memory} {a x : Word} {bs : List Byte} (w : Memory.wf m = true)
    (hl : bs.length ≤ 2 ^ 32) (h : bs.length ≤ (x - a).toNat) : readByte (writeBytes m a bs) x = readByte m x := by
  rw [readByte_writeBytes a x bs w hl, List.getElem?_eq_none h, Option.getD_none]

theorem readBytes_length (m : Memory) (a : Word) (n : Nat) : (readBytes m a n).length = n := by
  induction n generalizing a with
  | zero => rfl
  | succ n ih => simp [readBytes, ih]

/-- Byte `i` of a range read is the byte at `a + i` (R69). -/
theorem readBytes_getElem? (m : Memory) (a : Word) (n i : Nat) (h : i < n) :
    (readBytes m a n)[i]? = some (readByte m (a + BitVec.ofNat 32 i)) := by
  induction n generalizing a i with
  | zero => omega
  | succ n ih =>
    cases i with
    | zero => simp [readBytes]
    | succ i =>
      rw [readBytes, List.getElem?_cons_succ, ih (a + 1) i (by omega)]
      congr 2
      rw [BitVec.add_assoc]
      congr 1
      apply BitVec.eq_of_toNat_eq
      simp [Nat.add_comm]

/-- A range read depends on the bytes read alone. -/
theorem readBytes_congr {m m' : Memory} (a : Word) (n : Nat)
    (h : ∀ i, i < n → readByte m' (a + BitVec.ofNat 32 i) = readByte m (a + BitVec.ofNat 32 i)) :
    readBytes m' a n = readBytes m a n := by
  refine List.ext_getElem? fun i => ?_
  by_cases hi : i < n
  · rw [readBytes_getElem? _ _ _ _ hi, readBytes_getElem? _ _ _ _ hi, h i hi]
  · rw [List.getElem?_eq_none, List.getElem?_eq_none] <;> (rw [readBytes_length]; omega)

/-- Reading back the bytes just written (R53). -/
theorem readBytes_writeBytes {m : Memory} (a : Word) (bs : List Byte) (w : Memory.wf m = true)
    (hl : bs.length ≤ 2 ^ 32) : readBytes (writeBytes m a bs) a bs.length = bs := by
  refine List.ext_getElem? fun i => ?_
  by_cases hi : i < bs.length
  · rw [readBytes_getElem? _ _ _ _ hi, readByte_writeBytes _ _ _ w hl]
    have e : (a + BitVec.ofNat 32 i - a).toNat = i := by
      rw [BitVec.add_comm, BitVec.add_sub_cancel, BitVec.toNat_ofNat, Nat.mod_eq_of_lt (by omega)]
    rw [e, List.getElem?_eq_getElem hi]
    rfl
  · rw [List.getElem?_eq_none, List.getElem?_eq_none] <;> [omega; (rw [readBytes_length]; omega)]

/-! ### Byte order (R51) -/

@[simp] theorem leBytes_length (n v : Nat) : (leBytes n v).length = n := by
  induction n generalizing v with
  | zero => rfl
  | succ n ih => simp [leBytes, ih]

theorem leNat_lt (bs : List Byte) : leNat bs < 256 ^ bs.length := by
  induction bs with
  | nil => simp [leNat]
  | cons b bs ih =>
    have := b.isLt
    rw [leNat, List.length_cons, Nat.pow_succ]
    omega

/-- The number read from the low `n` bytes of `v` is `v` modulo 2^(8n). -/
theorem leNat_leBytes (n v : Nat) : leNat (leBytes n v) = v % 256 ^ n := by
  induction n generalizing v with
  | zero => simp [leBytes, leNat, Nat.mod_one]
  | succ n ih =>
    rw [leBytes, leNat, ih, BitVec.toNat_ofNat, pow_succ' 256 n, Nat.mod_mul]

/-- Byte `i` of a number (R53: `(v >> (8*i)) & 0xFF`). -/
theorem leBytes_getElem? (n v i : Nat) (h : i < n) : (leBytes n v)[i]? = some (BitVec.ofNat 8 (v >>> (8 * i))) := by
  induction n generalizing v i with
  | zero => omega
  | succ n ih =>
    cases i with
    | zero => simp [leBytes]
    | succ i =>
      rw [leBytes, List.getElem?_cons_succ, ih _ i (by omega)]
      congr 2
      rw [Nat.mul_add, Nat.add_comm, Nat.shiftRight_add, Nat.shiftRight_eq_div_pow v (8 * 1)]

/-- `MemRead` after `MemWrite` of the same width at the same address (R53). -/
theorem memRead_memWrite {m : Memory} (a : Word) (n v : Nat) (w : Memory.wf m = true) (hn : n ≤ 2 ^ 32) :
    memRead (memWrite m a n v) a n = v % 256 ^ n := by
  have := readBytes_writeBytes a (leBytes n v) w (by simpa using hn)
  rw [leBytes_length] at this
  rw [memRead, memWrite, this, leNat_leBytes]

/-- `write_word(addr, v); read_word(addr) == v` (R53). -/
theorem readWord_writeWord {m : Memory} (a v : Word) (w : Memory.wf m = true) : readWord (writeWord m a v) a = v := by
  rw [readWord, writeWord, memRead_memWrite a 4 _ w (by omega)]
  exact BitVec.eq_of_toNat_eq (by have := v.isLt; simp; omega)

/-- The same for a half (R53). -/
theorem readHalf_writeHalf {m : Memory} (a : Word) (v : Half) (w : Memory.wf m = true) :
    readHalf (writeHalf m a v) a = v := by
  rw [readHalf, writeHalf, memRead_memWrite a 2 _ w (by omega)]
  exact BitVec.eq_of_toNat_eq (by have := v.isLt; simp; omega)

/-- The bytes a word store leaves (R51, R53). -/
theorem readByte_writeWord {m : Memory} (a x v : Word) (w : Memory.wf m = true) :
    readByte (writeWord m a v) x =
      if (x - a).toNat < 4 then BitVec.ofNat 8 (v.toNat >>> (8 * (x - a).toNat)) else readByte m x := by
  rw [writeWord, memWrite, readByte_writeBytes _ _ _ w (by simp)]
  split
  · next h => rw [leBytes_getElem? _ _ _ h, Option.getD_some]
  · next h => rw [List.getElem?_eq_none (by simpa using h), Option.getD_none]

/-- A word read depends on its four bytes alone. -/
theorem readWord_congr {m m' : Memory} (a : Word)
    (h : ∀ i, i < 4 → readByte m' (a + BitVec.ofNat 32 i) = readByte m (a + BitVec.ofNat 32 i)) :
    readWord m' a = readWord m a := by
  rw [readWord, readWord, memRead, memRead, readBytes_congr a 4 h]

/-- A half is its two bytes, the lower address in the low bits (R51). -/
theorem readHalf_eq_append (m : Memory) (a : Word) : readHalf m a = readByte m (a + 1) ++ readByte m a := by
  have h1 := (readByte m a).isLt
  have h2 := (readByte m (a + 1)).isLt
  refine BitVec.eq_of_toNat_eq (n := 8 + 8) ?_
  rw [BitVec.toNat_append, Nat.shiftLeft_eq, ← Nat.shiftLeft_eq, ← Nat.shiftLeft_add_eq_or_of_lt h1, Nat.shiftLeft_eq]
  simp only [readHalf, memRead, readBytes, leNat, BitVec.toNat_ofNat]
  omega

theorem toNat_append_byte {n : Nat} (x : BitVec n) (b : Byte) : (x ++ b).toNat = x.toNat * 256 + b.toNat := by
  rw [BitVec.toNat_append, ← Nat.shiftLeft_add_eq_or_of_lt b.isLt, Nat.shiftLeft_eq]

/-- A word is its four bytes, the lowest address in the low bits (R51). -/
theorem readWord_eq_append (m : Memory) (a : Word) :
    readWord m a = readByte m (a + 3) ++ readByte m (a + 2) ++ readByte m (a + 1) ++ readByte m a := by
  have h0 := (readByte m a).isLt
  have h1 := (readByte m (a + 1)).isLt
  have h2 := (readByte m (a + 2)).isLt
  have h3 := (readByte m (a + 3)).isLt
  refine BitVec.eq_of_toNat_eq (n := 8 + 8 + 8 + 8) ?_
  rw [toNat_append_byte, toNat_append_byte, toNat_append_byte]
  have e2 : a + 1 + 1 = a + 2 := by rw [BitVec.add_assoc]; rfl
  have e3 : a + 2 + 1 = a + 3 := by rw [BitVec.add_assoc]; rfl
  simp only [readWord, memRead, readBytes, leNat, BitVec.toNat_ofNat, e2, e3]
  omega

/-- Byte `i` of a stored word (R51, R53). -/
theorem readByte_writeWord_at {m : Memory} (a v : Word) (i : Nat) (h : i < 4) (w : Memory.wf m = true) :
    readByte (writeWord m a v) (a + BitVec.ofNat 32 i) = v.extractLsb' (8 * i) 8 := by
  have e : (a + BitVec.ofNat 32 i - a).toNat = i := by
    rw [BitVec.add_comm, BitVec.add_sub_cancel, BitVec.toNat_ofNat, Nat.mod_eq_of_lt (by omega)]
  rw [readByte_writeWord _ _ _ w, e, if_pos h]
  rfl

end Sys2Proof.Machine
end

