-- ==== Sys2Proof/Laws/Registers.lean ====
section
/-! SUPPORT. Reading a register after writing one (10_state.md R20, R21, R28, R29). -/

namespace Sys2Proof.Machine

/-- `set(i, v); get(i) == v` for registers 1 to 31 (R20). -/
theorem State.get_set_same (s : State) (i : Nat) (v : Word) (h : 1 ≤ i ∧ i ≤ 31) : (s.set i v).get i = v := by
  simp [State.get, State.set, h]

/-- A write of one index leaves every other index as it was. -/
theorem State.get_set_ne (s : State) (i j : Nat) (v : Word) (h : i ≠ j) : (s.set i v).get j = s.get j := by
  unfold State.set
  split
  · unfold State.get
    split
    · simp only [Vector.getElem_set]
      rw [if_neg (by omega)]
    · rfl
  · split
    · unfold State.get
      split
      · rfl
      · simp only [show j ≠ 34 by omega, if_false]
    · rfl

@[simp] theorem State.x_zero (s : State) : s.x 0 = 0 := rfl

/-- A write to register 0 is discarded (R21). -/
@[simp] theorem State.setX_zero (s : State) (v : Word) : s.setX 0 v = s := rfl

theorem State.x_setX_same (s : State) (r : Reg) (v : Word) (h : r ≠ 0) : (s.setX r v).x r = v := by
  refine State.get_set_same s _ v ⟨?_, ?_⟩
  · have : r.toNat ≠ 0 := fun e => h (BitVec.eq_of_toNat_eq (by simpa using e))
    omega
  · have := r.isLt; omega

theorem State.x_setX_ne (s : State) (r q : Reg) (v : Word) (h : q ≠ r) : (s.setX r v).x q = s.x q :=
  State.get_set_ne s _ _ v fun e => h (BitVec.eq_of_toNat_eq e.symm)

/-- What a register reads after a write of a register. -/
theorem State.x_setX (s : State) (r q : Reg) (v : Word) :
    (s.setX r v).x q = if q = r then (if r = 0 then 0 else v) else s.x q := by
  split
  · next h =>
    subst h
    split
    · next h => subst h; rfl
    · next h => exact State.x_setX_same s q v h
  · next h => exact State.x_setX_ne s r q v h

/-- Registers are read through `regs` alone. -/
theorem State.x_congr {s t : State} (h : t.regs = s.regs) (r : Reg) : t.x r = s.x r := by
  have hr := r.isLt
  unfold State.x State.get
  split
  · simp only [h]
  · rw [if_neg (by omega), if_neg (by omega), if_neg (by omega), if_neg (by omega), if_neg (by omega), if_neg (by omega)]

@[simp] theorem State.setPc_x (s : State) (v : Word) (r : Reg) : (s.setPc v).x r = s.x r := State.x_congr (State.setPc_regs s v) r
@[simp] theorem State.advance_x (s : State) (r : Reg) : s.advance.x r = s.x r := State.x_congr (State.advance_regs s) r
@[simp] theorem State.beginStep_x (s : State) (r : Reg) : s.beginStep.x r = s.x r := State.x_congr (State.beginStep_regs s) r
@[simp] theorem State.emit_x (s : State) (e : Event) (r : Reg) : (s.emit e).x r = s.x r := State.x_congr (State.emit_regs s e) r
@[simp] theorem State.signal_x (s : State) (k : FaultKind) (r : Reg) : (s.signal k).x r = s.x r := State.x_congr (State.signal_regs s k) r

end Sys2Proof.Machine
end

