-- ==== Sys2Proof/Laws/Exec.lean ====
section
/-! SUPPORT. What an instruction and a step can do, said once: later proofs take these apart and unfold no meaning. -/

namespace Sys2Proof.Machine

/-- Everything an ordinary instruction can do to the state (40_step_cycle.md R114): write a register, record an overflow,
record a misaligned load and write a register, store a word with or without recording a misaligned store, or emit a
SYSCALL event. -/
inductive OrdinaryEffect (s : State) : State → Prop where
  | write (r : Reg) (v : Word) : OrdinaryEffect s (s.setX r v)
  | overflow : OrdinaryEffect s (s.signal .overflow)
  | misalignedLoad (ea : Word) (r : Reg) (v : Word) : OrdinaryEffect s ((s.signal (.alignment ea .load)).setX r v)
  | store (ea v : Word) : OrdinaryEffect s (storeWordAt ea v s)
  | syscall : OrdinaryEffect s (s.emit (.syscall s.pc))

theorem writeOrOverflow_effect (r : Reg) (e : Int) (s : State) : OrdinaryEffect s (writeOrOverflow r e s) := by
  unfold writeOrOverflow
  split
  · exact .write _ _
  · exact .overflow

theorem loadFrom_effect (n : Nat) (r : Reg) (ea : Word) (f : Memory → Word → Word) (s : State) :
    OrdinaryEffect s (loadFrom n r ea f s) := by
  unfold loadFrom checkAligned
  split
  · exact .write _ _
  · exact .misalignedLoad _ _ _

theorem ite_setX_effect (c : Prop) [Decidable c] (r : Reg) (v : Word) (s : State) :
    OrdinaryEffect s (if c then s.setX r v else s) := by
  split
  · exact .write _ _
  · exact .write 0 0

/-- An ordinary instruction always completes, with one of the effects above; in a slot it does the same. -/
theorem exec_ordinary (i : Instr) (s : State) (h : i.isTransfer = false) :
    ∃ t, exec i s = .next t ∧ execOrdinary i s = .next t ∧ OrdinaryEffect s t := by
  cases i with
  | jr | jal | bgtz => cases h
  | add | addi | sub => exact ⟨_, rfl, rfl, writeOrOverflow_effect _ _ _⟩
  | movz | movn => exact ⟨_, rfl, rfl, ite_setX_effect _ _ _ _⟩
  | lh | lw => exact ⟨_, rfl, rfl, loadFrom_effect _ _ _ _ _⟩
  | sw => exact ⟨_, rfl, rfl, .store _ _⟩
  | syscall => exact ⟨_, rfl, rfl, .syscall⟩
  | _ => exact ⟨_, rfl, rfl, .write _ _⟩

/-- A control transfer in a slot is refused (R121). -/
theorem execOrdinary_transfer (i : Instr) (s : State) (h : i.isTransfer = true) :
    execOrdinary i s = .refused .transferInDelaySlot := by
  cases i <;> first | rfl | cases h

/-- The nested step: it completes with an ordinary effect on the state whose PC is the slot's, or the slot holds a control
transfer and it is refused. -/
theorem runSlot_cases (s : State) :
    ((inSlot s).any Instr.isTransfer = false ∧ ∃ t, runSlot s = .next t ∧ OrdinaryEffect (enterSlot s) t) ∨
    ((inSlot s).any Instr.isTransfer = true ∧ runSlot s = .refused .transferInDelaySlot) := by
  unfold runSlot inSlot
  cases decode (slotWord s) with
  | error e => exact .inl ⟨rfl, enterSlot s, rfl, .write 0 0⟩
  | ok i =>
    cases hi : i.isTransfer with
    | false =>
      obtain ⟨t, _, h2, h3⟩ := exec_ordinary i (enterSlot s) hi
      exact .inl ⟨by simpa [Except.toOption] using hi, t, h2, h3⟩
    | true => exact .inr ⟨by simpa [Except.toOption] using hi, execOrdinary_transfer i _ hi⟩

/-! ### What every ordinary effect leaves alone -/

@[simp] theorem checkAligned_regs (n : Nat) (ea : Word) (c : Access) (s : State) : (checkAligned n ea c s).regs = s.regs := by
  unfold checkAligned; split <;> rfl
@[simp] theorem checkAligned_pc (n : Nat) (ea : Word) (c : Access) (s : State) : (checkAligned n ea c s).pc = s.pc := by
  unfold checkAligned; split <;> rfl
@[simp] theorem checkAligned_hi (n : Nat) (ea : Word) (c : Access) (s : State) : (checkAligned n ea c s).hi = s.hi := by
  unfold checkAligned; split <;> rfl
@[simp] theorem checkAligned_lo (n : Nat) (ea : Word) (c : Access) (s : State) : (checkAligned n ea c s).lo = s.lo := by
  unfold checkAligned; split <;> rfl
@[simp] theorem checkAligned_status (n : Nat) (ea : Word) (c : Access) (s : State) :
    (checkAligned n ea c s).status = s.status := by
  unfold checkAligned; split <;> rfl
@[simp] theorem checkAligned_mem (n : Nat) (ea : Word) (c : Access) (s : State) : (checkAligned n ea c s).mem = s.mem := by
  unfold checkAligned; split <;> rfl
@[simp] theorem checkAligned_x (n : Nat) (ea : Word) (c : Access) (s : State) (r : Reg) :
    (checkAligned n ea c s).x r = s.x r := State.x_congr (checkAligned_regs n ea c s) r

/-- An aligned access signals nothing (R181). -/
theorem checkAligned_of_aligned {n : Nat} {ea : Word} (c : Access) (s : State) (h : ea.toNat % n = 0) :
    checkAligned n ea c s = s := by
  rw [checkAligned, if_pos h]

/-- A misaligned access signals an alignment fault (R181). -/
theorem checkAligned_of_misaligned {n : Nat} {ea : Word} (c : Access) (s : State) (h : ea.toNat % n ≠ 0) :
    checkAligned n ea c s = s.signal (.alignment ea c) := by
  rw [checkAligned, if_neg h]

section storeWordAt
variable (ea v : Word) (s : State)
@[simp] theorem storeWordAt_mem : (storeWordAt ea v s).mem = writeWord s.mem ea v := rfl
@[simp] theorem storeWordAt_regs : (storeWordAt ea v s).regs = s.regs := by simp [storeWordAt]
@[simp] theorem storeWordAt_pc : (storeWordAt ea v s).pc = s.pc := by simp [storeWordAt]
@[simp] theorem storeWordAt_hi : (storeWordAt ea v s).hi = s.hi := by simp [storeWordAt]
@[simp] theorem storeWordAt_lo : (storeWordAt ea v s).lo = s.lo := by simp [storeWordAt]
@[simp] theorem storeWordAt_status : (storeWordAt ea v s).status = s.status := by simp [storeWordAt]
@[simp] theorem storeWordAt_x (r : Reg) : (storeWordAt ea v s).x r = s.x r :=
  State.x_congr (storeWordAt_regs ea v s) r
theorem storeWordAt_badVAddr : (storeWordAt ea v s).badVAddr = (checkAligned 4 ea .store s).badVAddr := rfl
theorem storeWordAt_cause : (storeWordAt ea v s).cause = (checkAligned 4 ea .store s).cause := rfl
theorem storeWordAt_epc : (storeWordAt ea v s).epc = (checkAligned 4 ea .store s).epc := rfl
theorem storeWordAt_events : (storeWordAt ea v s).events = (checkAligned 4 ea .store s).events := rfl
end storeWordAt

namespace OrdinaryEffect
variable {s t : State}

theorem pc_eq (h : OrdinaryEffect s t) : t.pc = s.pc := by cases h <;> simp
theorem hi_eq (h : OrdinaryEffect s t) : t.hi = s.hi := by cases h <;> simp
theorem lo_eq (h : OrdinaryEffect s t) : t.lo = s.lo := by cases h <;> simp
theorem status_eq (h : OrdinaryEffect s t) : t.status = s.status := by cases h <;> simp
theorem mem_wf (h : OrdinaryEffect s t) (w : Memory.wf s.mem = true) : Memory.wf t.mem = true := by
  cases h <;> first | simpa using w | exact writeWord_wf _ _ w

/-- At most one event is emitted (60_exceptions.md R208). -/
theorem events_length (h : OrdinaryEffect s t) : t.events.length ≤ s.events.length + 1 := by
  cases h with
  | store ea v => rw [storeWordAt_events, checkAligned]; split <;> simp
  | _ => simp

end OrdinaryEffect

/-! ### The step -/

/-- A step that answers a next state started at an aligned PC, and its state is the handler's, advanced (R122). -/
theorem step_eq_next {s t : State} (h : step s = .next t) :
    s.pc.toNat % 4 = 0 ∧ ∃ u, execWord (s.fetchAt s.pc) s.beginStep = .next u ∧ t = u.advance := by
  unfold step at h
  split at h
  · next ha =>
    obtain ⟨u, hu, rfl⟩ := thenNext_eq_next h
    exact ⟨by simpa [State.pcAligned] using ha, u, hu, rfl⟩
  · cases h

/-- A step at an aligned PC (R122). -/
theorem step_of_aligned {s : State} (h : s.pc.toNat % 4 = 0) :
    step s = thenNext (execWord (s.fetchAt s.pc) s.beginStep) State.advance := by
  rw [step, if_pos (by simpa [State.pcAligned] using h)]

theorem execWord_ok {w : Word} {i : Instr} (h : decode w = .ok i) (s : State) : execWord w s = exec i s := by
  rw [execWord, h]

theorem execWord_error {w : Word} {e : Unrecognized} (h : decode w = .error e) (s : State) : execWord w s = .next s := by
  rw [execWord, h]; rfl

/-- Everything a fetched word can do when it answers a next state: an ordinary effect (a no-op among them), JR's write of
PC, or a JAL or BGTZ after the ordinary effect of its slot. -/
theorem execWord_cases {w : Word} {s u : State} (h : execWord w s = .next u) :
    OrdinaryEffect s u ∨
    (∃ rs, decode w = .ok (.jr rs) ∧ u = s.setPc (s.x rs - 4)) ∨
    (∃ idx v, decode w = .ok (.jal idx) ∧ OrdinaryEffect (enterSlot s) v ∧ u = linkAndJump idx v) ∨
    (∃ rs imm v, decode w = .ok (.bgtz rs imm) ∧ OrdinaryEffect (enterSlot s) v ∧ u = branchIfTaken rs imm v) := by
  cases hd : decode w with
  | error e =>
    rw [execWord_error hd] at h
    cases h
    exact .inl (.write 0 0)
  | ok i =>
    rw [execWord_ok hd] at h
    cases hi : i.isTransfer with
    | false =>
      obtain ⟨t, h1, _, h3⟩ := exec_ordinary i s hi
      rw [h1] at h
      cases h
      exact .inl h3
    | true =>
      cases i with
      | jr rs => cases h; exact .inr (.inl ⟨rs, rfl, rfl⟩)
      | jal idx =>
        obtain ⟨v, hv, rfl⟩ := thenNext_eq_next h
        rcases runSlot_cases s with ⟨_, t, ht, he⟩ | ⟨_, hr⟩
        · rw [ht] at hv; cases hv
          exact .inr (.inr (.inl ⟨idx, v, rfl, he, rfl⟩))
        · rw [hr] at hv; cases hv
      | bgtz rs imm =>
        obtain ⟨v, hv, rfl⟩ := thenNext_eq_next h
        rcases runSlot_cases s with ⟨_, t, ht, he⟩ | ⟨_, hr⟩
        · rw [ht] at hv; cases hv
          exact .inr (.inr (.inr ⟨rs, imm, v, rfl, he, rfl⟩))
        · rw [hr] at hv; cases hv
      | _ => cases hi

section enterSlot
variable (s : State)
@[simp] theorem enterSlot_pc : (enterSlot s).pc = s.pc + 4 := rfl
@[simp] theorem enterSlot_regs : (enterSlot s).regs = s.regs := rfl
@[simp] theorem enterSlot_mem : (enterSlot s).mem = s.mem := rfl
@[simp] theorem enterSlot_hi : (enterSlot s).hi = s.hi := rfl
@[simp] theorem enterSlot_lo : (enterSlot s).lo = s.lo := rfl
@[simp] theorem enterSlot_status : (enterSlot s).status = s.status := rfl
@[simp] theorem enterSlot_events : (enterSlot s).events = s.events := rfl
@[simp] theorem enterSlot_x (r : Reg) : (enterSlot s).x r = s.x r := State.setPc_x s _ r
end enterSlot

section control
variable (s : State) (idx : Index26) (rs : Reg) (imm : Imm16)
@[simp] theorem linkAndJump_pc : (linkAndJump idx s).pc = jalTarget s.pc idx - 4 := rfl
@[simp] theorem linkAndJump_mem : (linkAndJump idx s).mem = s.mem := by simp [linkAndJump]
@[simp] theorem linkAndJump_hi : (linkAndJump idx s).hi = s.hi := by simp [linkAndJump]
@[simp] theorem linkAndJump_lo : (linkAndJump idx s).lo = s.lo := by simp [linkAndJump]
@[simp] theorem linkAndJump_status : (linkAndJump idx s).status = s.status := by simp [linkAndJump]
@[simp] theorem linkAndJump_events : (linkAndJump idx s).events = s.events := by simp [linkAndJump]
@[simp] theorem branchIfTaken_regs : (branchIfTaken rs imm s).regs = s.regs := by unfold branchIfTaken; split <;> rfl
@[simp] theorem branchIfTaken_mem : (branchIfTaken rs imm s).mem = s.mem := by unfold branchIfTaken; split <;> rfl
@[simp] theorem branchIfTaken_hi : (branchIfTaken rs imm s).hi = s.hi := by unfold branchIfTaken; split <;> rfl
@[simp] theorem branchIfTaken_lo : (branchIfTaken rs imm s).lo = s.lo := by unfold branchIfTaken; split <;> rfl
@[simp] theorem branchIfTaken_status : (branchIfTaken rs imm s).status = s.status := by
  unfold branchIfTaken; split <;> rfl
@[simp] theorem branchIfTaken_events : (branchIfTaken rs imm s).events = s.events := by
  unfold branchIfTaken; split <;> rfl
theorem branchIfTaken_pc :
    (branchIfTaken rs imm s).pc = if taken (s.x rs) then branchPc s.pc imm else s.pc := by
  unfold branchIfTaken; split <;> rfl
end control

/-- The handler of a fetched word leaves HI, LO and Status alone, keeps memory canonical and emits at most one event. -/
theorem execWord_keeps {w : Word} {s u : State} (h : execWord w s = .next u) :
    u.hi = s.hi ∧ u.lo = s.lo ∧ u.status = s.status ∧ (Memory.wf s.mem = true → Memory.wf u.mem = true) ∧
      u.events.length ≤ s.events.length + 1 := by
  rcases execWord_cases h with e | ⟨_, _, rfl⟩ | ⟨_, v, _, e, rfl⟩ | ⟨_, _, v, _, e, rfl⟩
  · exact ⟨e.hi_eq, e.lo_eq, e.status_eq, e.mem_wf, e.events_length⟩
  · simp
  · have := e.mem_wf; have := e.events_length; simp_all [e.hi_eq, e.lo_eq, e.status_eq]
  · have := e.mem_wf; have := e.events_length; simp_all [e.hi_eq, e.lo_eq, e.status_eq]

end Sys2Proof.Machine
end

