-- ==== Sys2Proof/Laws/Frames.lean ====
section
/-! SUPPORT. The frames of Safety.lean for the shared operations. -/

namespace Sys2Proof.Machine

/-- A register write changes that register and nothing else. -/
theorem onlyRegister_setX (s : State) (r : Reg) (v : Word) : OnlyRegister s (s.setX r v) r v := by
  refine ⟨⟨by simp [State.x_setX], fun q hq => State.x_setX_ne s r q v hq⟩, ?_⟩
  simp [SameConstants, SameFaultRegisters, SameMemory]

/-- Rewriting a register with its own value, in the form a conditional move that does not move needs. -/
theorem onlyRegister_refl (s : State) (r : Reg) : OnlyRegister s s r (s.x r) := by
  refine ⟨⟨?_, fun _ _ => rfl⟩, rfl, ⟨rfl, rfl⟩, ⟨rfl, rfl, rfl, rfl⟩, fun _ => rfl, rfl⟩
  split
  · next h => subst h; rfl
  · rfl

/-- `signal` records its fault (60_exceptions.md R202). -/
theorem recordsFault_signal (s : State) (k : FaultKind) : RecordsFault s (s.signal k) k := by
  cases k <;> simp [RecordsFault]

/-- A register write after a `signal`. -/
theorem registerReceives_signal_setX (s : State) (k : FaultKind) (r : Reg) (v : Word) :
    RegisterReceives s ((s.signal k).setX r v) r v := by
  refine ⟨by simp [State.x_setX], fun q hq => ?_⟩
  rw [State.x_setX_ne _ _ _ _ hq, State.signal_x]

end Sys2Proof.Machine
end

