-- ==== Sys2Proof/Laws/PerInstr.lean ====
section
/-! SUPPORT. Laws said once per instruction. -/

namespace Sys2Proof.Laws.Selector

/-- The selector bits of an instruction's word are those of its row (30_encoding.md R90): the fields encoded beside them
disturb none. -/
def Statement (i : Instr) : Prop := encode i &&& selectorMask i = selectorBits i

/-- A mask of all ones keeps a field, a mask of zeros clears it: R format. -/
theorem rWord_mask (op f : BitVec 6) (rs rt rd : Reg) (sh : BitVec 5) :
    rWord op rs rt rd sh f &&& 0xFC00003F#32 = rWord op 0 0 0 0 f := by
  change (op ++ rs ++ rt ++ rd ++ sh ++ f : BitVec (6 + 5 + 5 + 5 + 5 + 6)) &&&
    (BitVec.allOnes 6 ++ 0#5 ++ 0#5 ++ 0#5 ++ 0#5 ++ BitVec.allOnes 6 : BitVec (6 + 5 + 5 + 5 + 5 + 6)) = _
  rw [BitVec.and_append, BitVec.and_append, BitVec.and_append, BitVec.and_append, BitVec.and_append]
  simp only [BitVec.and_allOnes, BitVec.and_zero]
  rfl

/-- The same for the I format. -/
theorem iWord_mask (op : BitVec 6) (rs rt : Reg) (imm : Imm16) :
    iWord op rs rt imm &&& 0xFC000000#32 = rWord op 0 0 0 0 0 := by
  have e : ∀ op : BitVec 6, iWord op 0 0 0 = rWord op 0 0 0 0 0 := by decide
  rw [← e]
  change (op ++ rs ++ rt ++ imm : BitVec (6 + 5 + 5 + 16)) &&&
    (BitVec.allOnes 6 ++ 0#5 ++ 0#5 ++ 0#16 : BitVec (6 + 5 + 5 + 16)) = _
  rw [BitVec.and_append, BitVec.and_append, BitVec.and_append]
  simp only [BitVec.and_allOnes, BitVec.and_zero]
  rfl

/-- The same for the J format. -/
theorem jWord_mask (op : BitVec 6) (idx : Index26) : jWord op idx &&& 0xFC000000#32 = rWord op 0 0 0 0 0 := by
  have e : ∀ op : BitVec 6, jWord op 0 = rWord op 0 0 0 0 0 := by decide
  rw [← e]
  change (op ++ idx : BitVec (6 + 26)) &&& (BitVec.allOnes 6 ++ 0#26 : BitVec (6 + 26)) = _
  rw [BitVec.and_append]
  simp only [BitVec.and_allOnes, BitVec.and_zero]
  rfl

theorem and (rd : Reg) (rs : Reg) (rt : Reg) : Statement (.and rd rs rt) := rWord_mask _ _ _ _ _ _
theorem or (rd : Reg) (rs : Reg) (rt : Reg) : Statement (.or rd rs rt) := rWord_mask _ _ _ _ _ _
theorem xor (rd : Reg) (rs : Reg) (rt : Reg) : Statement (.xor rd rs rt) := rWord_mask _ _ _ _ _ _
theorem nor (rd : Reg) (rs : Reg) (rt : Reg) : Statement (.nor rd rs rt) := rWord_mask _ _ _ _ _ _
theorem andi (rt : Reg) (rs : Reg) (imm : Imm16) : Statement (.andi rt rs imm) := iWord_mask _ _ _ _
theorem ori (rt : Reg) (rs : Reg) (imm : Imm16) : Statement (.ori rt rs imm) := iWord_mask _ _ _ _
theorem xori (rt : Reg) (rs : Reg) (imm : Imm16) : Statement (.xori rt rs imm) := iWord_mask _ _ _ _
theorem slt (rd : Reg) (rs : Reg) (rt : Reg) : Statement (.slt rd rs rt) := rWord_mask _ _ _ _ _ _
theorem slti (rt : Reg) (rs : Reg) (imm : Imm16) : Statement (.slti rt rs imm) := iWord_mask _ _ _ _
theorem sltiu (rt : Reg) (rs : Reg) (imm : Imm16) : Statement (.sltiu rt rs imm) := iWord_mask _ _ _ _
theorem add (rd : Reg) (rs : Reg) (rt : Reg) : Statement (.add rd rs rt) := rWord_mask _ _ _ _ _ _
theorem addi (rt : Reg) (rs : Reg) (imm : Imm16) : Statement (.addi rt rs imm) := iWord_mask _ _ _ _
theorem addu (rd : Reg) (rs : Reg) (rt : Reg) : Statement (.addu rd rs rt) := rWord_mask _ _ _ _ _ _
theorem addiu (rt : Reg) (rs : Reg) (imm : Imm16) : Statement (.addiu rt rs imm) := iWord_mask _ _ _ _
theorem sub (rd : Reg) (rs : Reg) (rt : Reg) : Statement (.sub rd rs rt) := rWord_mask _ _ _ _ _ _
theorem subu (rd : Reg) (rs : Reg) (rt : Reg) : Statement (.subu rd rs rt) := rWord_mask _ _ _ _ _ _
theorem clz (rd : Reg) (rs : Reg) : Statement (.clz rd rs) := rWord_mask _ _ _ _ _ _
theorem clo (rd : Reg) (rs : Reg) : Statement (.clo rd rs) := rWord_mask _ _ _ _ _ _
theorem lui (rt : Reg) (imm : Imm16) : Statement (.lui rt imm) := iWord_mask _ _ _ _
theorem movz (rd : Reg) (rs : Reg) (rt : Reg) : Statement (.movz rd rs rt) := rWord_mask _ _ _ _ _ _
theorem movn (rd : Reg) (rs : Reg) (rt : Reg) : Statement (.movn rd rs rt) := rWord_mask _ _ _ _ _ _
theorem jr (rs : Reg) : Statement (.jr rs) := rWord_mask _ _ _ _ _ _
theorem jal (idx : Index26) : Statement (.jal idx) := jWord_mask _ _
theorem bgtz (rs : Reg) (imm : Imm16) : Statement (.bgtz rs imm) := iWord_mask _ _ _ _
theorem lb (rt : Reg) (rs : Reg) (imm : Imm16) : Statement (.lb rt rs imm) := iWord_mask _ _ _ _
theorem lh (rt : Reg) (rs : Reg) (imm : Imm16) : Statement (.lh rt rs imm) := iWord_mask _ _ _ _
theorem lw (rt : Reg) (rs : Reg) (imm : Imm16) : Statement (.lw rt rs imm) := iWord_mask _ _ _ _
theorem sw (rt : Reg) (rs : Reg) (imm : Imm16) : Statement (.sw rt rs imm) := iWord_mask _ _ _ _
theorem syscall : Statement (.syscall) := rWord_mask _ _ _ _ _ _

end Sys2Proof.Laws.Selector
end

