-- ==== Sys2Proof/Laws/Step.lean ====
section
/-! SUPPORT. A step in terms of its worker (Safety.lean): what the instruction at PC, or the one in its slot, did, and what
the transfer and the trailing advance then left alone. -/

namespace Sys2Proof.Machine

theorem current_eq_some {s : State} {i : Instr} (h : current s = some i) : decode (s.fetchAt s.pc) = .ok i := by
  unfold current at h
  cases hd : decode (s.fetchAt s.pc) with
  | error => rw [hd] at h; cases h
  | ok j => rw [hd] at h; cases h; rfl

theorem current_eq_none {s : State} (h : current s = none) : ∃ e, decode (s.fetchAt s.pc) = .error e := by
  unfold current at h
  cases hd : decode (s.fetchAt s.pc) with
  | error e => exact ⟨e, rfl⟩
  | ok j => rw [hd] at h; cases h

/-- The slot is told by memory and PC alone. -/
theorem inSlot_congr {s t : State} (hm : t.mem = s.mem) (hp : t.pc = s.pc) : inSlot t = inSlot s := by
  unfold inSlot slotWord State.fetchAt; rw [hm, hp]

/-- The nested step in the words of Safety.lean. -/
theorem runSlot_runs (s : State) (h : (inSlot s).any Instr.isTransfer = false) :
    ∃ u, SlotRuns s u ∧ runSlot s = .next u ∧ OrdinaryEffect (enterSlot s) u := by
  unfold SlotRuns runSlot inSlot at *
  cases hd : decode (slotWord s) with
  | error e => exact ⟨_, .inr ⟨rfl, rfl⟩, rfl, .write 0 0⟩
  | ok i =>
    rw [hd] at h
    obtain ⟨t, h1, h2, h3⟩ := exec_ordinary i (enterSlot s) (by simpa [Except.toOption] using h)
    exact ⟨t, .inl ⟨i, rfl, by simpa [Except.toOption] using h, h1⟩, h2, h3⟩

/-- A nested step that answers a next state is one that runs. -/
theorem slotRuns_of_runSlot {s u : State} (h : runSlot s = .next u) : SlotRuns s u := by
  rcases runSlot_cases s with ⟨hn, _⟩ | ⟨_, hr⟩
  · obtain ⟨v, hv, hr, _⟩ := runSlot_runs s hn
    rw [hr] at h; cases h
    exact hv
  · rw [hr] at h; cases h

/-- The state the worker finds: an empty event list, and PC at the worker's own address. -/
def workerStart (s : State) : State := { s with pc := workerPc s, events := [] }

section workerStart
variable (s : State)
@[simp] theorem workerStart_regs : (workerStart s).regs = s.regs := rfl
@[simp] theorem workerStart_pc : (workerStart s).pc = workerPc s := rfl
@[simp] theorem workerStart_mem : (workerStart s).mem = s.mem := rfl
@[simp] theorem workerStart_hi : (workerStart s).hi = s.hi := rfl
@[simp] theorem workerStart_lo : (workerStart s).lo = s.lo := rfl
@[simp] theorem workerStart_badVAddr : (workerStart s).badVAddr = s.badVAddr := rfl
@[simp] theorem workerStart_status : (workerStart s).status = s.status := rfl
@[simp] theorem workerStart_cause : (workerStart s).cause = s.cause := rfl
@[simp] theorem workerStart_epc : (workerStart s).epc = s.epc := rfl
@[simp] theorem workerStart_events : (workerStart s).events = [] := rfl
@[simp] theorem workerStart_x (r : Reg) : (workerStart s).x r = s.x r := State.x_congr (workerStart_regs s) r
@[simp] theorem workerStart_effectiveAddress (rs : Reg) (imm : Imm16) :
    effectiveAddress (workerStart s) rs imm = effectiveAddress s rs imm := by simp [effectiveAddress]
end workerStart

/-- The worker's own effect: nothing, when its word is unrecognized; nothing but PC, when it is a JR; otherwise its
handler's, from the state with an empty event list and PC at the worker's own address. -/
def WorkerRuns (s u : State) : Prop :=
  (worker s = none ∧ u = workerStart s) ∨
  (∃ rs, worker s = some (.jr rs) ∧ u = workerStart s) ∨
  ∃ i, worker s = some i ∧ i.isTransfer = false ∧ exec i (workerStart s) = .next u

theorem WorkerRuns.ofSlot {s u : State} (hd : (current s).any Instr.isDelayedTransfer = true)
    (h : SlotRuns s.beginStep u) : WorkerRuns s u := by
  unfold WorkerRuns workerStart worker workerPc
  simp only [hd, if_true]
  rcases h with ⟨i, h1, h2, h3⟩ | ⟨h1, rfl⟩
  · exact .inr (.inr ⟨i, h1, h2, h3⟩)
  · exact .inl ⟨h1, rfl⟩

/-- Everything a completed step does, besides PC: its worker's effect, and JAL's link. -/
theorem step_worker {s t : State} (h : step s = .next t) :
    ∃ u, WorkerRuns s u ∧ t.mem = u.mem ∧ t.hi = u.hi ∧ t.lo = u.lo ∧ t.badVAddr = u.badVAddr ∧ t.status = u.status ∧
      t.cause = u.cause ∧ t.epc = u.epc ∧ t.events = u.events ∧
      (t.regs = u.regs ∨ ∃ idx, current s = some (.jal idx) ∧ ∀ r, r ≠ 31 → t.x r = u.x r) := by
  obtain ⟨_, u, hu, rfl⟩ := step_eq_next h
  cases hc : current s with
  | none =>
    obtain ⟨e, he⟩ := current_eq_none hc
    rw [execWord_error he] at hu; cases hu
    exact ⟨s.beginStep, .inl ⟨by simp [worker, hc], by simp [workerStart, workerPc, hc]; rfl⟩, by simp⟩
  | some i =>
    rw [execWord_ok (current_eq_some hc)] at hu
    cases hi : i.isTransfer with
    | false =>
      refine ⟨u, .inr (.inr ⟨i, ?_, hi, ?_⟩), by simp⟩
      · cases i <;> first | (simp [worker, hc, Instr.isDelayedTransfer]; done) | cases hi
      · have : workerPc s = s.pc := by cases i <;> first | (simp [workerPc, hc, Instr.isDelayedTransfer]; done) | cases hi
        rw [workerStart, this]; exact hu
    | true =>
      cases i with
      | jr rs =>
        cases hu
        exact ⟨s.beginStep, .inr (.inl ⟨rs, by simp [worker, hc, Instr.isDelayedTransfer],
          by simp [workerStart, workerPc, hc, Instr.isDelayedTransfer]; rfl⟩), by simp⟩
      | jal idx =>
        obtain ⟨v, hv, rfl⟩ := thenNext_eq_next hu
        refine ⟨v, .ofSlot (by simp [hc, Instr.isDelayedTransfer]) (slotRuns_of_runSlot hv), ?_⟩
        refine ⟨by simp, by simp, by simp, by simp [linkAndJump], by simp, by simp [linkAndJump], by simp [linkAndJump],
          by simp, .inr ⟨idx, by simp, fun r hr => ?_⟩⟩
        rw [State.advance_x, linkAndJump, State.setPc_x, State.x_setX_ne _ _ _ _ hr]
      | bgtz rs imm =>
        obtain ⟨v, hv, rfl⟩ := thenNext_eq_next hu
        refine ⟨v, .ofSlot (by simp [hc, Instr.isDelayedTransfer]) (slotRuns_of_runSlot hv), ?_⟩
        unfold branchIfTaken
        split <;> simp
      | _ => cases hi

end Sys2Proof.Machine
end

