-- ==== Sys2Proof/Laws/Values.lean ====
section
/-! SUPPORT. The values the operand forms, the tests and the counts compute, said in numbers. -/

namespace Sys2Proof.Machine

/-- `sext_16` keeps the signed value (00_scope.md R10). -/
theorem sext16_toInt (v : BitVec 16) : (sext16 v).toInt = v.toInt := BitVec.toInt_signExtend_of_le (by omega)

/-- `zext_16` keeps the unsigned value (00_scope.md R10). -/
theorem zext16_toNat (v : BitVec 16) : (zext16 v).toNat = v.toNat := by
  have := v.isLt
  simp only [zext16, BitVec.toNat_setWidth]
  omega

/-- LUI's operand (30_encoding.md R86). -/
theorem upperImm_toNat (imm : Imm16) : (upperImm imm).toNat = imm.toNat * 2 ^ 16 := by
  have e : upperImm imm = (imm ++ 0#16 : BitVec (16 + 16)) := rfl
  rw [e, BitVec.toNat_append]
  simp [Nat.shiftLeft_eq]

/-- BGTZ's operand (30_encoding.md R86). -/
theorem branchOffset_toInt (imm : Imm16) : (branchOffset imm).toInt = 4 * imm.toInt := by
  have e : branchOffset imm = (imm ++ 0#2 : BitVec (16 + 2)).signExtend 32 := rfl
  have e2 : (imm ++ 0#2 : BitVec (16 + 2)).toNat = imm.toNat * 4 := by
    rw [BitVec.toNat_append]; simp [Nat.shiftLeft_eq]
  rw [e, BitVec.toInt_signExtend_of_le (by omega), BitVec.toInt_eq_toNat_cond, BitVec.toInt_eq_toNat_cond, e2]
  split <;> split <;> omega

/-- BGTZ's operand is the sign-extended immediate shifted left by 2 (30_encoding.md R86). -/
theorem branchOffset_eq_shift (imm : Imm16) : branchOffset imm = imm.signExtend 32 <<< 2 := by
  have e : branchOffset imm = (imm ++ 0#2 : BitVec (16 + 2)).signExtend 32 := rfl
  rw [e]
  ext i hi
  simp only [BitVec.getElem_signExtend, BitVec.getElem_shiftLeft, BitVec.getElem_append]
  simp
  grind

/-- JAL's operand is the index shifted left by 2 (30_encoding.md R87). -/
theorem indexShifted_eq_shift (idx : Index26) : indexShifted idx = idx.setWidth 32 <<< 2 := by
  have e : indexShifted idx = (idx ++ 0#2 : BitVec (26 + 2)).setWidth 32 := rfl
  rw [e]
  ext i hi
  simp only [BitVec.getElem_setWidth, BitVec.getElem_shiftLeft, BitVec.getLsbD_append]
  simp

theorem fitsSigned_iff (e : Int) : fitsSigned e = true ↔ -2 ^ 31 ≤ e ∧ e ≤ 2 ^ 31 - 1 := by simp [fitsSigned]

/-- `popcount` is the number of one bits (44_bitcount_lui_move.md R155). -/
theorem popcount_eq_card (v : Word) : popcount v = (Finset.univ.filter fun k : Fin 32 => v.getLsbD k = true).card := by
  have e : (Finset.univ.filter fun k : Fin 32 => v.getLsbD k = true).card =
      (List.finRange 32).countP fun k : Fin 32 => v.getLsbD k.val := by
    rw [Finset.card, Finset.filter_val, ← Multiset.countP_eq_card_filter, Fin.univ_def]
    simp [Multiset.coe_countP]
  have e2 : (List.finRange 32).map (fun k : Fin 32 => k.val) = List.range 32 := by decide
  rw [e, popcount, ← e2, List.countP_map]
  rfl

/-- The one bits of the complement are the zero bits (44_bitcount_lui_move.md R157). -/
theorem popcount_not (v : Word) :
    (Finset.univ.filter fun k : Fin 32 => (~~~v).getLsbD k = true).card = 32 - popcount v := by
  have e : (Finset.univ.filter fun k : Fin 32 => (~~~v).getLsbD k = true) =
      (Finset.univ.filter fun k : Fin 32 => v.getLsbD k = true)ᶜ := by
    ext k; simp
  rw [popcount_eq_card, e, Finset.card_compl]
  rfl

theorem popcount_le (v : Word) : popcount v ≤ 32 := by
  have := List.countP_le_length (p := fun k => v.getLsbD k) (l := List.range 32)
  simpa [popcount] using this

end Sys2Proof.Machine
end

