-- ==== Sys2Proof/Tests/Slice0.lean ====
section
/-! SUPPORT. The model's own tests, all from numbers the spec gives (95_test_vectors.md unless a comment says otherwise), and
one witness for every statement with hypotheses: a concrete state and operands that meet them, at the boundaries of each
clause. -/

namespace Sys2Proof.Tests

open Sys2Proof.Machine

/-! ### Helpers -/

/-- The bytes of instruction or data words, little-endian. -/
def wordBytes (ws : List Word) : List Byte := ws.flatMap fun w => leBytes 4 w.toNat

/-- The power-on state with words loaded at the address `a`, PC there, and registers set. -/
def boot (a : Word) (ws : List Word) (rs : List (Reg × Word)) : State :=
  rs.foldl (fun s p => s.setX p.1 p.2) ((State.reset.loadSegment (wordBytes ws) a).setPc a)

/-- The same at the text base. -/
def prog (ws : List Word) (rs : List (Reg × Word)) : State := boot Config.textBase ws rs

/-- The same with the data of section 2.6 in memory: words 0x8899AABB, 0x11223344 at 0x10010000, and x[1] there. -/
def dataProg (w : Word) (rs : List (Reg × Word)) : State :=
  prog [w] ((1, 0x10010000) :: rs) |>.loadSegment (wordBytes [0x8899AABB, 0x11223344]) 0x10010000

/-- The next state of a step, if there is one. -/
def stepped (s : State) : Option State :=
  match step s with
  | .next t => some t
  | _ => none

/-- The refusal of a step, if there is one. -/
def refusal (s : State) : Option Refusal :=
  match step s with
  | .refused r => some r
  | _ => none

/-- The next state of an instruction, if there is one. -/
def executed (i : Instr) (s : State) : Option State :=
  match exec i s with
  | .next t => some t
  | _ => none

/-- What a step leaves, as seen by `f`. -/
def after {α : Type} (s : State) (f : State → α) : Option α := (stepped s).map f

/-- The fault registers and the events: BadVAddr, Cause, EPC, events. -/
def faults (t : State) : Word × Word × Word × List Event := (t.badVAddr, t.cause, t.epc, t.events)

theorem next_of_after {α : Type} {s : State} {f : State → α} {a : α} (h : after s f = some a) :
    ∃ t, step s = .next t ∧ f t = a := by
  unfold after stepped at h
  cases hs : step s with
  | next t => rw [hs] at h; exact ⟨t, rfl, by simpa using h⟩
  | fault r => exact nomatch r
  | refused r => rw [hs] at h; simp at h

/-! ### WellFormed: one ill-formed listing per check -/

/-- NOP (30_encoding.md R93): an unrecognized word. -/
theorem test_wf_refuses_unrecognized : defectsFrom 0 (listing [0x24420001, 0x00000000]) = [.unrecognized 1] := by decide

theorem test_wf_refuses_transfer_in_slot :
    defectsFrom 0 (listing [0x0C100040, 0x03E00008]) = [.transferInSlot 1] := by decide

theorem test_wf_refuses_missing_slot : defectsFrom 0 (listing [0x24420001, 0x1C200004]) = [.slotMissing 1] := by decide

/-- Program P2 without its last word. -/
theorem test_wf_accepts : Listing.wellFormed (listing [0x24040015, 0x0C100008, 0x24050001, 0x00403025, 0x0000000C,
    0x00841021, 0x03E00008]) = true := by decide

/-! ### Decoding: a word of every row of 30_encoding.md section 4, from the vectors and the rows' own examples -/

theorem test_decode_logical :
    decode 0x00221824#32 = .ok (.and 3 1 2) ∧ decode 0x00221825#32 = .ok (.or 3 1 2) ∧
    decode 0x00221826#32 = .ok (.xor 3 1 2) ∧ decode 0x00221827#32 = .ok (.nor 3 1 2) ∧
    decode 0x3022FF00#32 = .ok (.andi 2 1 0xFF00) ∧ decode 0x34228001#32 = .ok (.ori 2 1 0x8001) ∧
    decode 0x38228000#32 = .ok (.xori 2 1 0x8000) := by decide

theorem test_decode_compare :
    decode 0x0022182A#32 = .ok (.slt 3 1 2) ∧ decode 0x2822FFFF#32 = .ok (.slti 2 1 0xFFFF) ∧
    decode 0x2C228000#32 = .ok (.sltiu 2 1 0x8000) := by decide

theorem test_decode_arithmetic :
    decode 0x00221820#32 = .ok (.add 3 1 2) ∧ decode 0x20228000#32 = .ok (.addi 2 1 0x8000) ∧
    decode 0x00221821#32 = .ok (.addu 3 1 2) ∧ decode 0x2422FFFF#32 = .ok (.addiu 2 1 0xFFFF) ∧
    decode 0x00221822#32 = .ok (.sub 3 1 2) ∧ decode 0x00221823#32 = .ok (.subu 3 1 2) := by decide

theorem test_decode_count_move :
    decode 0x70291820#32 = .ok (.clz 3 1) ∧ decode 0x70231821#32 = .ok (.clo 3 1) ∧
    decode 0x3CE21234#32 = .ok (.lui 2 0x1234) ∧ decode 0x0022180A#32 = .ok (.movz 3 1 2) ∧
    decode 0x0022180B#32 = .ok (.movn 3 1 2) := by decide

theorem test_decode_control :
    decode 0x002728C8#32 = .ok (.jr 1) ∧ decode 0x0FFFFFFF#32 = .ok (.jal 0x3FFFFFF) ∧
    decode 0x1C290004#32 = .ok (.bgtz 1 4) := by decide

theorem test_decode_load_store_system :
    decode 0x8022FFFF#32 = .ok (.lb 2 1 0xFFFF) ∧ decode 0x84220003#32 = .ok (.lh 2 1 3) ∧
    decode 0x8C620001#32 = .ok (.lw 2 3 1) ∧ decode 0xAFBF0000#32 = .ok (.sw 31 29 0) ∧
    decode 0x02AF378C#32 = .ok .syscall := by decide

/-- Section 2.7: words of the parent architecture that are no instruction here. -/
theorem test_decode_unrecognized :
    ([0x00021080, 0x0022182B, 0x08100040, 0x10220004, 0x0020F809, 0xA0220000, 0xA4220000, 0x90220000, 0x94220000, 0x70221802,
      0x00001810, 0x42000018, 0x0000000D, 0xFFFFFFFF] : List Word).all (fun w => (decode w).toOption.isNone) = true := by
  decide

/-- The same word through the host's two entry points: V6's word, `ADDU r2, r2, r1`, as a table word and as bytes. -/
theorem test_decode_bytes : decodeTableWord 32 0x00411021 = some (.addu 2 2 1) ∧
    decodeBytes [0x21, 0x10, 0x41, 0x00, 0xFF] = .ok (.addu 2 2 1, [0xFF]) := by decide

theorem test_encode : encode (.clz 3 1) = 0x70231820 ∧ encode (.jal 0x0100040) = 0x0C100040 ∧
    encode (.sw 31 29 0) = 0xAFBF0000 ∧ encode (.lui 2 0x1234) = 0x3C021234 := by decide

/-! ### One step of each instruction -/

theorem test_and : after (prog [0x00221824] [(1, 0xFF00FF00), (2, 0x0FF00FF0)]) (·.x 3) = some 0x0F000F00 := by decide
theorem test_or : after (prog [0x00221825] [(1, 0xFF00FF00), (2, 0x0FF00FF0)]) (·.x 3) = some 0xFFF0FFF0 := by decide
theorem test_xor : after (prog [0x00221826] [(1, 0xFF00FF00), (2, 0x0FF00FF0)]) (·.x 3) = some 0xF0F0F0F0 := by decide
theorem test_nor : after (prog [0x00221827] [(1, 0xFF00FF00), (2, 0x0FF00FF0)]) (·.x 3) = some 0x000F000F := by decide
theorem test_andi : after (prog [0x3022FF00] [(1, 0xFFFFFFFF)]) (·.x 2) = some 0x0000FF00 := by decide
theorem test_ori : after (prog [0x34228001] [(1, 0x12340000)]) (·.x 2) = some 0x12348001 := by decide
theorem test_xori : after (prog [0x38228000] []) (·.x 2) = some 0x00008000 := by decide
/-- A destination of r0: nothing but PC. -/
theorem test_and_r0 : after (prog [0x00220024] [(1, 3), (2, 3)]) (fun t => (t.x 0, t.pc)) = some (0, 0x00400004) := by decide

theorem test_slt : after (prog [0x0022182A] [(1, 0x80000000), (2, 0x7FFFFFFF)]) (·.x 3) = some 1 := by decide
theorem test_slti_equal : after (prog [0x28228000] [(1, 0xFFFF8000)]) (·.x 2) = some 0 := by decide
theorem test_slti : after (prog [0x2822FFFF] [(1, 0xFFFFFFFE)]) (·.x 2) = some 1 := by decide
theorem test_sltiu : after (prog [0x2C228000] [(1, 0x00010000)]) (·.x 2) = some 1 := by decide
theorem test_sltiu_zero : after (prog [0x2C220000] [(1, 0xFFFFFFFF)]) (·.x 2) = some 0 := by decide

theorem test_add : after (prog [0x00221820] [(1, 5), (2, 0xFFFFFFFD)]) (·.x 3) = some 2 := by decide
theorem test_add_overflow : after (prog [0x00221820] [(1, 0x7FFFFFFF), (2, 1), (3, 0xAAAA)])
    (fun t => (t.x 3, faults t)) =
    some (0xAAAA, 0, 0x30, 0x00400000, [.faultSignal .overflow 0x00400000]) := by decide
theorem test_addi : after (prog [0x20228000] [(1, 0x00008000)]) (fun t => (t.x 2, t.events)) = some (0, []) := by decide
theorem test_addi_overflow : after (prog [0x2022FFFF] [(1, 0x80000000), (2, 0xBBBB)]) (fun t => (t.x 2, t.cause)) =
    some (0xBBBB, 0x30) := by decide
theorem test_addu : after (prog [0x00221821] [(1, 0x7FFFFFFF), (2, 1)]) (fun t => (t.x 3, t.events)) =
    some (0x80000000, []) := by decide
theorem test_addiu : after (prog [0x2422FFFF] []) (·.x 2) = some 0xFFFFFFFF := by decide
theorem test_sub : after (prog [0x00221822] [(1, 0xFFFFFFFF), (2, 0x80000000)]) (·.x 3) = some 0x7FFFFFFF := by decide
theorem test_sub_overflow : after (prog [0x00221822] [(2, 0x80000000), (3, 0xAAAA)]) (fun t => (t.x 3, t.cause)) =
    some (0xAAAA, 0x30) := by decide
theorem test_subu : after (prog [0x00221823] [(1, 0x80000000), (2, 1)]) (fun t => (t.x 3, t.events)) =
    some (0x7FFFFFFF, []) := by decide

theorem test_clz : after (prog [0x70231820] [(1, 0x80000001)]) (·.x 3) = some 2 := by decide
theorem test_clo : after (prog [0x70231821] [(1, 0x0000FFFF)]) (·.x 3) = some 16 := by decide
theorem test_clo_zero : after (prog [0x70231821] []) (·.x 3) = some 32 := by decide
theorem test_lui : after (prog [0x3C021234] [(2, 0xFFFFFFFF)]) (·.x 2) = some 0x12340000 := by decide
theorem test_movz : after (prog [0x0022180A] [(1, 0x1111), (3, 0x3333)]) (·.x 3) = some 0x1111 := by decide
theorem test_movz_not : after (prog [0x0022180A] [(1, 0x1111), (2, 5), (3, 0x3333)]) (·.x 3) = some 0x3333 := by decide
theorem test_movn : after (prog [0x0022180B] [(1, 0x1111), (2, 0x80000000), (3, 0x3333)]) (·.x 3) = some 0x1111 := by decide
theorem test_movn_not : after (prog [0x0022180B] [(1, 0x1111), (3, 0x3333)]) (·.x 3) = some 0x3333 := by decide

/-- JR has no slot. -/
theorem test_jr : after (prog [0x00200008, 0x24420001] [(1, 0x00400100)]) (fun t => (t.pc, t.x 2)) =
    some (0x00400100, 0) := by decide
theorem test_jr_zero : after (prog [0x00200008] []) (·.pc) = some 0 := by decide
/-- JAL: its slot sees the old r31, and the link overwrites what the slot writes there. -/
theorem test_jal_slot_reads_r31 : after (prog [0x0C100040, 0x03E02825] [(31, 0x1234)]) (fun t => (t.x 5, t.x 31, t.pc)) =
    some (0x1234, 0x00400008, 0x00400100) := by decide
theorem test_jal_wraps : after (boot 0xFFFFFFFC [0x0C100040, 0x241F0077] []) (fun t => (t.x 31, t.pc)) =
    some (0x00000004, 0x00400100) := by decide
/-- BGTZ: the slot makes it taken; a fault in the slot carries the slot's address and the branch still happens. -/
theorem test_bgtz_slot_first : after (prog [0x1C208000, 0x24010007] []) (fun t => (t.x 1, t.pc)) =
    some (7, 0x003E0000) := by decide
theorem test_bgtz_slot_fault : after (prog [0x1C200004, 0x8C620001] [(1, 1), (3, 0x10010000)] |>.loadSegment
      (wordBytes [0x8899AABB, 0x11223344]) 0x10010000) (fun t => (t.pc, faults t)) =
    some (0x00400010, 0x10010001, 0x10, 0x00400004,
      [.faultSignal (.alignment 0x10010001 .load) 0x00400004]) := by decide
theorem test_transfer_in_slot : refusal (prog [0x1C200004, 0x0C100040] []) = some .transferInDelaySlot := by decide
theorem test_misaligned_pc : refusal (boot 0x00400001 [] []) = some .misalignedPC := by decide

theorem test_lb : after (dataProg 0x80220003 []) (·.x 2) = some 0xFFFFFF88 := by decide
theorem test_lh : after (dataProg 0x84220002 []) (fun t => (t.x 2, t.events)) = some (0xFFFF8899, []) := by decide
theorem test_lh_misaligned : after (dataProg 0x84220003 []) (fun t => (t.x 2, t.badVAddr)) =
    some (0x00004488, 0x10010003) := by decide
theorem test_lw : after (dataProg 0x8C210000 []) (·.x 1) = some 0x8899AABB := by decide
theorem test_lw_misaligned : after (dataProg 0x8C220001 []) (fun t => (t.x 2, faults t)) =
    some (0x448899AA, 0x10010001, 0x10, 0x00400000, [.faultSignal (.alignment 0x10010001 .load) 0x00400000]) := by decide
theorem test_sw : after (dataProg 0xAC22FFF8 [(1, 0x10010008), (2, 0xCAFEF00D)]) (fun t => t.readMemory 0x10010000 5) =
    some [0x0D, 0xF0, 0xFE, 0xCA, 0x44] := by decide
theorem test_sw_wraps : after (dataProg 0xAC220000 [(1, 0xFFFFFFFE), (2, 0xA1B2C3D4)])
    (fun t => (t.readMemory 0xFFFFFFFE 4, t.cause)) = some ([0xD4, 0xC3, 0xB2, 0xA1], 0x14) := by decide
theorem test_syscall : after (prog [0x0000000C] []) (fun t => (t.events, t.pc)) =
    some ([.syscall 0x00400000], 0x00400004) := by decide

/-! ### The machine and its host -/

theorem test_power_on : State.reset.get 29 = 0x7FFFFFFC ∧ State.reset.get 34 = 0x00400000 ∧ State.reset.get 5 = 0 ∧
    State.reset.get 35 = 0 := by decide

/-- V2: `reset()` in mid-run. -/
theorem test_reset_op : hostDo .reset { prog [] [(5, 9)] with pc := 0x00400020, epc := 0x00400018, cause := 0x10 } =
    .next { State.reset with epc := 0x00400018, cause := 0x10 } := by rfl

/-- V4: a fault-free step leaves the fault registers. -/
theorem test_fault_registers_stay :
    after { prog [0] [] with epc := 0x00400000, cause := 0x30, events := [.syscall 0] } (fun t => (t.epc, t.cause, t.events)) =
    some (0x00400000, 0x30, []) := by decide

/-- Section 2.6, store then fetch. -/
theorem test_store_then_fetch :
    ((stepped (prog [0xAC220000, 0x24030001] [(1, 0x00400004), (2, 0x24030002)])).bind stepped).map (·.x 3) = some 2 := by
  decide

theorem test_withFetchWord : after (State.reset.withFetchWord 32 0x24050123) (·.x 5) = some 0x123 := by decide

/-- The two alternatives of the parameters the model does not take (44 R156, 45 R168, R170; P5 and section 2.5). -/
theorem test_alternatives : clzCount .leading 0xF0F00000 = 0 ∧ cloCount .leading 0xF0F00000 = 4 ∧
    takenUnder .nonzero 0x80000000 = true ∧ combine .and 0x10000000 0x00000100 = 0 := by decide

/-! ### Witnesses: the hypotheses of each statement hold together somewhere -/

theorem eq_some_forall {o : Option Instr} {j : Instr} {P : Instr → Prop} (h : o = some j) (hp : P j) :
    ∀ i, o = some i → P i := by
  intro i hi
  rw [h] at hi
  cases hi
  exact hp

theorem witness_GeneralRegistersAreStorage : ((1 ≤ 1 ∧ 1 ≤ 31) ∧ (31 : Nat) ≠ 1) ∧ (1 ≤ 31 ∧ 31 ≤ 31) ∧ (34 : Nat) ≠ 31 := by
  decide

theorem witness_RegisterZeroIsConstant : destination (.add 0 1 2) = some 0 ∧ destination (.lw 0 1 1) = some 0 := by decide

theorem witness_RegisterReadByIndex : (1 ≤ 1 ∧ 1 ≤ 31) ∧ (1 ≤ 31 ∧ 31 ≤ 31) ∧ 34 < 35 := by decide

theorem witness_RegisterWriteByIndex : ∀ i ∈ [0, 32, 33, 35], i = 0 ∨ i = 32 ∨ i = 33 ∨ 34 < i := by decide

/-- JAL with ADDIU r4 in its slot. -/
def jalState : State := prog [0x0C100040, 0x24040009] []

theorem witness_StepWritesOnlyNamedRegisters : ∃ t, step jalState = .next t ∧
    (∀ i, current jalState = some i → 5 ∉ registersWritten i) ∧
    (∀ i, worker jalState = some i → 5 ∉ registersWritten i) := by
  obtain ⟨t, ht, _⟩ := next_of_after (s := jalState) (f := fun t => t.x 31) (a := 0x00400008) (by decide)
  exact ⟨t, ht, eq_some_forall (j := .jal 0x0100040) (by decide) (by decide),
    eq_some_forall (j := .addiu 4 0 9) (by decide) (by decide)⟩

/-- A memory with the last byte of the address space in it. -/
def topMemory : Memory := [(0xFFFFFFFF, 7)]

/-- PC at the last word of memory: an ordinary word, an unrecognized one, and a JAL whose slot, at address 0, is a no-op. -/
theorem witness_EveryByteIsPlainStorage :
    let s := boot 0xFFFFFFFC [] []
    Memory.wf topMemory = true ∧ (0x00000000#32 ≠ 0xFFFFFFFF#32) ∧ Memory.wf s.mem = true ∧ s.pc.toNat % 4 = 0 ∧
    (decode 0x24420001#32 = .ok (.addiu 2 2 1) ∧ (Instr.addiu 2 2 1).isDelayedTransfer = false ∧
      (Instr.addiu 2 2 1).isTransfer = false) ∧
    (decode 0x0C100040#32 = .ok (.jal 0x0100040) ∧
      (inSlot { s with mem := writeWord s.mem s.pc 0x0C100040 }).any Instr.isTransfer = false) ∧
    decode 0x00000000#32 = .error (.function 0 0) := by decide

theorem witness_MemReadIsLittleEndianSum : 1 ∈ [1, 2, 4] ∧ 2 ∈ [1, 2, 4] ∧ 4 ∈ [1, 2, 4] := by decide

theorem witness_MemWriteStoresLittleEndian :
    (Memory.wf topMemory = true ∧ 4 ∈ [1, 2, 4] ∧ 0 < 4 ∧ 3 < 4 ∧ 4 ≤ (0x00000001#32 - 0xFFFFFFFD#32).toNat) ∧
    (exec (.and 1 2 3) State.reset = .next (State.reset.setX 1 (State.reset.x 2 &&& State.reset.x 3)) ∧
      (∀ rt rs imm, Instr.and 1 2 3 ≠ .sw rt rs imm) ∧ (Instr.and 1 2 3).isDelayedTransfer = false) :=
  ⟨by decide, rfl, by simp, rfl⟩

/-- SW r2, 0(r1), ending at the top of memory; and the same in the slot of a BGTZ. -/
def swState : State := prog [0xAC220000] [(1, 0xFFFFFFFE), (2, 0xA1B2C3D4)]
def swSlotState : State := prog [0x1C200004, 0xAC220000] [(1, 0xFFFFFFFE), (2, 0xA1B2C3D4)]

theorem witness_StepStoresOnlyWhereSwPoints :
    (Memory.wf swState.mem = true ∧ (∃ t, step swState = .next t) ∧ worker swState = some (.sw 2 1 0)) ∧
    (Memory.wf swSlotState.mem = true ∧ (∃ t, step swSlotState = .next t) ∧ worker swSlotState = some (.sw 2 1 0)) ∧
    (Memory.wf jalState.mem = true ∧ (∃ t, step jalState = .next t) ∧
      ∀ rt rs imm, worker jalState ≠ some (.sw rt rs imm)) := by
  obtain ⟨t, ht, _⟩ := next_of_after (s := swState) (f := State.pc) (a := 0x00400004) (by decide)
  obtain ⟨u, hu, _⟩ := next_of_after (s := swSlotState) (f := State.pc) (a := 0x00400008) (by decide)
  obtain ⟨v, hv, _⟩ := next_of_after (s := jalState) (f := State.pc) (a := 0x00400100) (by decide)
  refine ⟨⟨by decide, ⟨t, ht⟩, by decide⟩, ⟨by decide, ⟨u, hu⟩, by decide⟩, by decide, ⟨v, hv⟩, ?_⟩
  have : worker jalState = some (.addiu 4 0 9) := by decide
  simp [this]

theorem witness_CanonicalMemoryIsDeterminedByItsBytes :
    let m := writeByte (writeByte [] 0xFFFFFFFF 7) 0 5
    let n := writeByte (writeByte [] 0 5) 0xFFFFFFFF 7
    Memory.wf m = true ∧ Memory.wf n = true ∧ ∀ a : Word, readByte m a = readByte n a := by
  exact ⟨by decide, by decide, fun _ => rfl⟩

theorem witness_LoadSegmentCopiesVerbatim :
    Memory.wf swState.mem = true ∧ (wordBytes [0x00411021]).length ≤ 2 ^ 32 ∧ 3 < (wordBytes [0x00411021]).length := by decide

/-- SW r2, 0(r1) onto the next word. -/
def selfStoreState : State := prog [0xAC220000, 0x24030001] [(1, 0x00400004), (2, 0x24030002)]

theorem witness_StoredInstructionIsFetchedNext : Memory.wf selfStoreState.mem = true ∧
    current selfStoreState = some (.sw 2 1 0) ∧ effectiveAddress selfStoreState 1 0 = selfStoreState.pc + 4 ∧
    ∃ t, step selfStoreState = .next t := by
  obtain ⟨t, ht, _⟩ := next_of_after (s := selfStoreState) (f := State.pc) (a := 0x00400004) (by decide)
  exact ⟨by decide, by decide, by decide, t, ht⟩

theorem witness_SelectionByOpcodeAndFunctionAlone :
    (decode 0x00221FE1#32 = .ok (.addu 3 1 2) ∧ opcodeOf 0x00221FE1#32 = 0x00#6) ∧
    (decode 0x70291820#32 = .ok (.clz 3 1) ∧ opcodeOf 0x70291820#32 = 0x1C#6) ∧
    (decode 0x302200FF#32 = .ok (.andi 2 1 0xFF) ∧
      ¬ (opcodeOf 0x302200FF#32 = 0x00#6 ∨ opcodeOf 0x302200FF#32 = 0x1C#6)) ∧
    (opcodeOf 0x00221FE1#32 = opcodeOf 0x00221821#32 ∧ functOf 0x00221FE1#32 = functOf 0x00221821#32) := by decide

theorem witness_RecognisedExactlyWhenARowMatches : decode 0x0FFFFFFF#32 = .ok (.jal 0x3FFFFFF) ∧
    0x0FFFFFFF#32 &&& selectorMask (.jal 0) = selectorBits (.jal 0) ∧
    0x0FFFFFFF#32 &&& selectorMask (.jal 5) = selectorBits (.jal 5) := by decide

/-- The opcodes and function codes of the rows of 30_encoding.md section 4. -/
def rows : List (BitVec 6 × Option (BitVec 6)) :=
  [0x08, 0x0A, 0x0B, 0x0C, 0x20, 0x21, 0x22, 0x23, 0x24, 0x25, 0x26, 0x27, 0x2A].map (fun f => (0x00, some f)) ++
  [(0x1C, some 0x20), (0x1C, some 0x21)] ++
  [0x03, 0x07, 0x08, 0x09, 0x0A, 0x0B, 0x0C, 0x0D, 0x0E, 0x0F, 0x20, 0x21, 0x23, 0x2B].map (fun o => (o, none))

theorem mem_rows (i : Instr) : (opc i, fn i) ∈ rows := by cases i <;> simp [rows, opc, fn]

/-- SLTU of the parent architecture matches no row. -/
theorem sltu_no_row (i : Instr) : 0x0022182B#32 &&& selectorMask i ≠ selectorBits i := by
  have h : (rows.all fun p => (0x0022182B#32 &&& (if p.2.isSome then 0xFC00003F#32 else 0xFC000000#32)) !=
    rWord p.1 0 0 0 0 (p.2.getD 0)) = true := by decide
  exact bne_iff_ne.1 (List.all_eq_true.1 h _ (mem_rows i))

theorem sltu_fetched : (prog [0x0022182B] []).fetchAt (prog [0x0022182B] []).pc = 0x0022182B#32 := by decide

theorem witness_UnrecognizedWordIsSilentNoOp : (prog [0x0022182B] []).pc.toNat % 4 = 0 ∧
    ∀ i : Instr, (prog [0x0022182B] []).fetchAt (prog [0x0022182B] []).pc &&& selectorMask i ≠ selectorBits i :=
  ⟨by decide, fun i => by rw [sltu_fetched]; exact sltu_no_row i⟩

/-- x[1] and x[2] as given. -/
def two (a b : Word) : State := prog [] [(1, a), (2, b)]

theorem witness_SignedArithmeticThatFits :
    let fits : Int → Prop := fun e => -2 ^ 31 ≤ e ∧ e ≤ 2 ^ 31 - 1
    fits (((two 0x7FFFFFFE 1).x 1).toInt + ((two 0x7FFFFFFE 1).x 2).toInt) ∧
    fits (((two 0x80000001 0).x 1).toInt + (0xFFFF : Imm16).toInt) ∧
    fits (((two 0xFFFFFFFF 0x80000000).x 1).toInt - ((two 0xFFFFFFFF 0x80000000).x 2).toInt) := by decide

theorem witness_SignedOverflowIsRecorded :
    let outside : Int → Prop := fun e => e < -2 ^ 31 ∨ 2 ^ 31 - 1 < e
    outside (((two 0x7FFFFFFF 1).x 1).toInt + ((two 0x7FFFFFFF 1).x 2).toInt) ∧
    outside (((two 0x80000000 0).x 1).toInt + (0xFFFF : Imm16).toInt) ∧
    outside (((two 0 0x80000000).x 1).toInt - ((two 0 0x80000000).x 2).toInt) ∧
    outside (((two 0x80000000 1).x 1).toInt - ((two 0x80000000 1).x 2).toInt) := by decide

theorem witness_CountAndMoveFrames : ∀ i ∈ [Instr.clz 3 1, .clo 3 1, .lui 2 0x1234, .movz 3 1 2, .movn 3 1 2],
    i ∈ [Instr.clz 3 1, .clo 3 1, .lui 2 0x1234, .movz 3 1 2, .movn 3 1 2] := fun _ h => h

theorem witness_CountAndMoveResults : (two 0x1111 0).x 2 = 0 ∧ (two 0x1111 0x80000000).x 2 ≠ 0 := by decide

theorem witness_AlignedLoads : ((two 0xFFFFFFFF 0).x 1 + (0xFFFF : Imm16).signExtend 32).toNat % 2 = 0 ∧
    ((two 0xFFFFFFFD 0).x 1 + (0xFFFF : Imm16).signExtend 32).toNat % 4 = 0 := by decide

theorem witness_MisalignedLoadsStillLoad : ((two 0xFFFFFFFF 0).x 1 + (0 : Imm16).signExtend 32).toNat % 2 ≠ 0 ∧
    ((two 0xFFFFFFFD 0).x 1 + (0 : Imm16).signExtend 32).toNat % 4 ≠ 0 := by decide

theorem witness_StoreWord : Memory.wf swState.mem = true ∧ (effectiveAddress swState 1 0).toNat % 4 ≠ 0 ∧
    (effectiveAddress swState 1 2).toNat % 4 = 0 := by decide

theorem witness_LoadGivesBackTheStoredWord : Memory.wf swState.mem = true ∧
    ∃ t u, exec (.sw 2 1 0) swState = .next t ∧ effectiveAddress t 1 0 = effectiveAddress swState 1 0 ∧
      exec (.lw 3 1 0) t = .next u ∧ (3 : Reg) ≠ 0 :=
  ⟨by decide, _, _, rfl, by decide, rfl, by decide⟩

theorem witness_FaultsNeverRedirectOrHalt : (Instr.lw 2 1 1).isTransfer = false ∧
    (Instr.jal 0x0100040).isDelayedTransfer = true ∧ (inSlot jalState).any Instr.isTransfer = false := by decide

/-- BGTZ, taken, with a misaligned LW in its slot: the fault's address is the slot's. -/
def slotFaultState : State := prog [0x1C200004, 0x8C620001] [(1, 1), (3, 0x10010000)]

theorem witness_FaultRegistersDescribeTheLastFault : (∃ t, step jalState = .next t ∧ NoFault t) ∧
    (∃ t, step slotFaultState = .next t ∧
      Event.faultSignal (.alignment 0x10010001 .load) 0x00400004 ∈ t.events) ∧
    ∃ t, step (prog [0x00221820] [(1, 0x7FFFFFFF), (2, 1)]) = .next t ∧
      Event.faultSignal .overflow 0x00400000 ∈ t.events := by
  obtain ⟨t, ht, ht'⟩ := next_of_after (s := jalState) (f := State.events) (a := []) (by decide)
  obtain ⟨u, hu, hu'⟩ := next_of_after (s := slotFaultState) (f := State.events)
    (a := [.faultSignal (.alignment 0x10010001 .load) 0x00400004]) (by decide)
  obtain ⟨v, hv, hv'⟩ := next_of_after (s := prog [0x00221820] [(1, 0x7FFFFFFF), (2, 1)]) (f := State.events)
    (a := [.faultSignal .overflow 0x00400000]) (by decide)
  exact ⟨⟨t, ht, by simp [NoFault, ht']⟩, ⟨u, hu, by simp [hu']⟩, v, hv, by simp [hv']⟩

theorem witness_EventsComeFromTheirInstructions :
    ∀ p ∈ [(prog [0x0000000C] [], Event.syscall 0x00400000), (slotFaultState, .faultSignal (.alignment 0x10010001 .load) 0x00400004),
      (swState, .faultSignal (.alignment 0xFFFFFFFE .store) 0x00400000),
      (prog [0x00221820] [(1, 0x7FFFFFFF), (2, 1)], .faultSignal .overflow 0x00400000)],
    ∃ t, step p.1 = .next t ∧ p.2 ∈ t.events := by
  have key : ∀ (s : State) (e : Event), after s State.events = some [e] → ∃ t, step s = .next t ∧ e ∈ t.events := by
    intro s e h
    obtain ⟨t, ht, he⟩ := next_of_after h
    exact ⟨t, ht, by simp [he]⟩
  intro p hp
  simp only [List.mem_cons, List.not_mem_nil, or_false] at hp
  rcases hp with rfl | rfl | rfl | rfl <;> exact key _ _ (by decide)

theorem witness_StepRunsTheDecodedInstruction : jalState.pc.toNat % 4 = 0 ∧
    decode (readWord jalState.mem jalState.pc) = .ok (.jal 0x0100040) ∧ (Instr.addiu 4 0 9).isTransfer = false := by decide

theorem witness_JumpAndLink : (inSlot jalState).any Instr.isTransfer = false ∧
    (inSlot (prog [0x0C100040] [])).any Instr.isTransfer = false := by decide

/-- BGTZ r1, 4 with ADDIU r2, r2, 1 in its slot. -/
def bgtzState (v : Word) : State := prog [0x1C200004, 0x24420001] [(1, v)]

/-- The largest value that is taken, and the two nearest that are not. -/
theorem witness_BranchOnGreaterThanZero :
    ((inSlot (bgtzState 1)).any Instr.isTransfer = false ∧ ∃ u, SlotRuns (bgtzState 1) u ∧ 0 < (u.x 1).toInt) ∧
    ((inSlot (bgtzState 0)).any Instr.isTransfer = false ∧ ∃ u, SlotRuns (bgtzState 0) u ∧ (u.x 1).toInt ≤ 0) ∧
    ∃ u, SlotRuns (bgtzState 0x80000000) u ∧ (u.x 1).toInt ≤ 0 :=
  ⟨⟨by decide, _, .inl ⟨.addiu 2 2 1, by decide, rfl, rfl⟩, by decide⟩,
    ⟨by decide, _, .inl ⟨.addiu 2 2 1, by decide, rfl, rfl⟩, by decide⟩,
    _, .inl ⟨.addiu 2 2 1, by decide, rfl, rfl⟩, by decide⟩

/-- A BGTZ that is not taken, with a JAL in its slot (P6, section 2.5). -/
def badSlotState : State := prog [0x1C200004, 0x0C100040] []

theorem witness_TransferInDelaySlotIsRefused : (Instr.bgtz 1 4).isDelayedTransfer = true ∧
    (Instr.jal 0).isDelayedTransfer = true ∧ (inSlot badSlotState).any Instr.isTransfer = true := by decide

theorem witness_NextPcOfEveryStep :
    (current (prog [0] []) = none ∧ ∃ t, step (prog [0] []) = .next t) ∧
    (current swState = some (.sw 2 1 0) ∧ (Instr.sw 2 1 0).isTransfer = false ∧ ∃ t, step swState = .next t) ∧
    (current (prog [0x00200008] []) = some (.jr 1) ∧ ∃ t, step (prog [0x00200008] []) = .next t) ∧
    (current jalState = some (.jal 0x0100040) ∧ ∃ t, step jalState = .next t) ∧
    (current (bgtzState 1) = some (.bgtz 1 4) ∧ ∃ t, step (bgtzState 1) = .next t) := by
  have key : ∀ (s : State) (v : Word), after s State.pc = some v → ∃ t, step s = .next t := by
    intro s v h
    obtain ⟨t, ht, _⟩ := next_of_after h
    exact ⟨t, ht⟩
  exact ⟨⟨by decide, key _ 0x00400004 (by decide)⟩, ⟨by decide, rfl, key _ 0x00400004 (by decide)⟩,
    ⟨by decide, key _ 0 (by decide)⟩, ⟨by decide, key _ 0x00400100 (by decide)⟩,
    by decide, key _ 0x00400010 (by decide)⟩

/-- A slot that writes the register its BGTZ tests, and one that writes r0 before a BGTZ on r0; a slot that writes the
register JAL links in, one that writes another, and one that writes r0. -/
theorem witness_SlotActsBeforeItsTransfer :
    (inSlot (prog [0x1C200004, 0x2421FFFF] [(1, 1)]) = some (.addiu 1 1 0xFFFF) ∧
      current (prog [0x1C200004, 0x2421FFFF] [(1, 1)]) = some (.bgtz 1 4) ∧
      ∃ t, step (prog [0x1C200004, 0x2421FFFF] [(1, 1)]) = .next t) ∧
    (inSlot (prog [0x0C100040, 0x241F0077] []) = some (.addiu 31 0 0x77) ∧
      current (prog [0x0C100040, 0x241F0077] []) = some (.jal 0x0100040) ∧
      ∃ t, step (prog [0x0C100040, 0x241F0077] []) = .next t) ∧
    (inSlot jalState = some (.addiu 4 0 9) ∧ (4 : Reg) ≠ 31 ∧ ∃ t, step jalState = .next t) ∧
    (inSlot (prog [0x1C000004, 0x24000005] []) = some (.addiu 0 0 5) ∧
      current (prog [0x1C000004, 0x24000005] []) = some (.bgtz 0 4) ∧
      ∃ t, step (prog [0x1C000004, 0x24000005] []) = .next t) ∧
    (inSlot (prog [0x0C100040, 0x24000005] []) = some (.addiu 0 0 5) ∧ (0 : Reg) ≠ 31 ∧
      ∃ t, step (prog [0x0C100040, 0x24000005] []) = .next t) := by
  obtain ⟨t, ht, _⟩ := next_of_after (s := prog [0x1C200004, 0x2421FFFF] [(1, 1)]) (f := fun t => (t.x 1, t.pc))
    (a := (0, 0x00400008)) (by decide)
  obtain ⟨u, hu, _⟩ := next_of_after (s := prog [0x0C100040, 0x241F0077] []) (f := fun t => (t.x 31, t.pc))
    (a := (0x00400008, 0x00400100)) (by decide)
  obtain ⟨v, hv, _⟩ := next_of_after (s := jalState) (f := fun t => t.x 4) (a := 9) (by decide)
  obtain ⟨w, hw, _⟩ := next_of_after (s := prog [0x1C000004, 0x24000005] []) (f := State.pc) (a := 0x00400008) (by decide)
  obtain ⟨y, hy, _⟩ := next_of_after (s := prog [0x0C100040, 0x24000005] []) (f := State.pc) (a := 0x00400100) (by decide)
  exact ⟨⟨by decide, by decide, t, ht⟩, ⟨by decide, by decide, u, hu⟩, ⟨by decide, by decide, v, hv⟩,
    ⟨by decide, by decide, w, hw⟩, by decide, by decide, y, hy⟩

theorem ready_bgtz : Ready (bgtzState 1) := by
  refine ⟨by decide, fun h => ?_⟩
  have : (inSlot (bgtzState 1)).any Instr.isTransfer = false := by decide
  rw [h.2] at this
  cases this

theorem witness_EveryStepCompletesOrIsRefused : Ready (bgtzState 1) ∧ (boot 0xFFFFFFFF [] []).pc.toNat % 4 ≠ 0 ∧
    (badSlotState.pc.toNat % 4 = 0 ∧ TransferInSlot badSlotState) :=
  ⟨ready_bgtz, by decide, by decide, by unfold TransferInSlot; decide⟩

theorem witness_OnlyJumpRegisterMisalignsPc : (∃ t, step jalState = .next t) ∧ ∀ rs, current jalState ≠ some (.jr rs) := by
  obtain ⟨t, ht, _⟩ := next_of_after (s := jalState) (f := State.pc) (a := 0x00400100) (by decide)
  have : current jalState = some (.jal 0x0100040) := by decide
  exact ⟨⟨t, ht⟩, by simp [this]⟩

theorem witness_StepKeepsTheInvariant : Inv slotFaultState ∧ ∃ t, step slotFaultState = .next t := by
  obtain ⟨t, ht, _⟩ := next_of_after (s := slotFaultState) (f := State.pc) (a := 0x00400010) (by decide)
  exact ⟨by decide, t, ht⟩

/-- From power-on the host loads an image and steps it. -/
theorem witness_EveryReachableStateMeetsTheInvariant : ∃ t,
    step (State.reset.loadSegment (wordBytes [0x24050123]) Config.textBase) = .next t ∧ Reachable t := by
  obtain ⟨t, ht, _⟩ := next_of_after (s := State.reset.loadSegment (wordBytes [0x24050123]) Config.textBase)
    (f := fun t => t.x 5) (a := 0x123) (by decide)
  exact ⟨t, ht, .host _ _ .step (.host _ _ (.loadSegment _ _) .powerOn rfl) ht⟩

theorem witness_FaultRecordIsInvisibleToPrograms :
    (SameProgramView swState { swState with hi := 1, epc := 2, cause := 3, badVAddr := 4, events := [.syscall 5] } ∧
      ∃ t, step swState = .next t) ∧
    (SameProgramView badSlotState { badSlotState with epc := 2 } ∧
      step badSlotState = .refused .transferInDelaySlot) := by
  obtain ⟨t, ht, _⟩ := next_of_after (s := swState) (f := State.pc) (a := 0x00400004) (by decide)
  exact ⟨⟨⟨rfl, rfl, rfl⟩, t, ht⟩, ⟨rfl, rfl, rfl⟩, rfl⟩

theorem witness_LoadedInstructionIsTheNextToRun : Memory.wf swState.mem = true ∧ swState.pc.toNat % 4 = 0 := by decide

theorem witness_EmptyMemoryIsWalkedThrough : State.reset.mem = [] ∧ State.reset.pc.toNat % 4 = 0 := by decide

end Sys2Proof.Tests
end

section
/-! Registers (10_state.md): what a read returns over the whole index space, and what an instruction makes of its
destination field. -/

namespace Sys2Proof.Machine

/-! ### Reads by index (R28) -/

/-- Indices 1 to 31 read the stored registers. -/
theorem State.get_general (s : State) (i : Nat) (h : 1 ≤ i ∧ i ≤ 31) : s.get i = s.regs[i - 1] := dif_pos h

/-- An index above 34 reads as 0. -/
theorem State.get_above (s : State) (i : Nat) (h : 34 < i) : s.get i = 0 := by
  rw [State.get, dif_neg (by omega), if_neg (by omega), if_neg (by omega), if_neg (by omega)]

/-- Writing back the value a register holds changes nothing. -/
@[simp] theorem State.setX_x (s : State) (r : Reg) : s.setX r (s.x r) = s := by
  have hr := r.isLt
  unfold State.setX State.set
  split
  · next h => rw [State.x, State.get_general s _ h, Vector.set_getElem_self]
  · rw [if_neg (by omega)]

/-! ### The destination field (R21) -/

/-- What an instruction with a destination field does, as a function `f` of that field alone: it may signal a fault, the
same for every destination, and then writes the destination. -/
def SignalsThenWrites (s : State) (f : Reg → State) : Prop :=
  ∃ u, (u = s ∨ ∃ k, u = s.signal k) ∧ ∀ r, ∃ v, f r = u.setX r v

theorem signalsThenWrites_setX (s : State) (v : Word) : SignalsThenWrites s fun r => s.setX r v :=
  ⟨s, .inl rfl, fun _ => ⟨v, rfl⟩⟩

/-- A conditional move (44_bitcount_lui_move.md R159, R160): when it does not move, the write is of the old value. -/
theorem signalsThenWrites_ite (s : State) (c : Prop) [Decidable c] (v : Word) :
    SignalsThenWrites s fun r => if c then s.setX r v else s := by
  by_cases hc : c
  · simpa [hc] using signalsThenWrites_setX s v
  · exact ⟨s, .inl rfl, fun r => ⟨s.x r, by simp [hc]⟩⟩

/-- A signed form (43_arithmetic.md R146): on overflow, the write is of the old value. -/
theorem signalsThenWrites_writeOrOverflow (s : State) (e : Int) :
    SignalsThenWrites s fun r => writeOrOverflow r e s := by
  cases he : fitsSigned e with
  | true => exact ⟨s, .inl rfl, fun r => ⟨BitVec.ofInt 32 e, by simp [writeOrOverflow, he]⟩⟩
  | false => exact ⟨s.signal .overflow, .inr ⟨_, rfl⟩, fun r => ⟨(s.signal .overflow).x r, by
      rw [State.setX_x]; simp [writeOrOverflow, he]⟩⟩

/-- A load (46_load_store.md R181): the value is read, and a misaligned address signalled, whatever the destination. -/
theorem signalsThenWrites_loadFrom (s : State) (n : Nat) (ea : Word) (value : Memory → Word → Word) :
    SignalsThenWrites s fun r => loadFrom n r ea value s := by
  refine ⟨checkAligned n ea .load s, ?_, fun r => ⟨value s.mem ea, rfl⟩⟩
  by_cases ha : ea.toNat % n = 0
  · exact .inl (checkAligned_of_aligned .load s ha)
  · exact .inr ⟨_, checkAligned_of_misaligned .load s ha⟩

/-- An instruction is itself with its own destination field. -/
theorem withDestination_destination {i : Instr} {d : Reg} (h : destination i = some d) : withDestination i d = i := by
  cases i with
  | jr | jal | bgtz | sw | syscall => cases h
  | _ => cases h; rfl

/-- Every instruction with a destination field completes, having signalled its fault, if any, and written that field. -/
theorem exec_withDestination {i : Instr} {d : Reg} (h : destination i = some d) (s : State) :
    ∃ f, SignalsThenWrites s f ∧ ∀ r, exec (withDestination i r) s = .next (f r) := by
  cases i with
  | jr | jal | bgtz | sw | syscall => cases h
  | add | addi | sub => exact ⟨_, signalsThenWrites_writeOrOverflow s _, fun _ => rfl⟩
  | movz | movn => exact ⟨_, signalsThenWrites_ite s _ _, fun _ => rfl⟩
  | lh | lw => exact ⟨_, signalsThenWrites_loadFrom s _ _ _, fun _ => rfl⟩
  | _ => exact ⟨_, signalsThenWrites_setX s _, fun _ => rfl⟩

/-- Neither a signal nor its absence changes a general register, memory or PC (60_exceptions.md R204). -/
theorem frame_of_signalled {s u : State} (h : u = s ∨ ∃ k, u = s.signal k) :
    SameRegisters s u ∧ SameMemory s u ∧ u.pc = s.pc := by
  rcases h with rfl | ⟨k, rfl⟩
  · exact ⟨fun _ => rfl, fun _ => rfl, rfl⟩
  · exact ⟨State.signal_x s k, fun _ => rfl, rfl⟩

/-- Settles O2: an instruction with a destination field signals, the same for every destination, and then writes it
(`exec_withDestination`), and the write of register 0 is discarded. -/
theorem registerZeroIsConstant : Obligations.RegisterZeroIsConstant := by
  refine ⟨fun s => ⟨rfl, s.x_zero, s.setX_zero⟩, fun i s hi => ?_⟩
  obtain ⟨f, ⟨u, hu, hf⟩, hexec⟩ := exec_withDestination hi s
  have hzero : exec i s = .next u := by
    obtain ⟨v, hv⟩ := hf 0
    rw [← withDestination_destination hi, hexec 0, hv, State.setX_zero]
  obtain ⟨hregs, hmem, hpc⟩ := frame_of_signalled hu
  refine ⟨u, hzero, hregs, hmem, hpc, fun r => ?_⟩
  obtain ⟨v, hv⟩ := hf r
  obtain ⟨-, -, -, hfault, -, hevents⟩ := onlyRegister_setX u r v
  exact ⟨u.setX r v, hv ▸ hexec r, hfault, hevents⟩

/-- Settles O1, by the read-after-write laws of registers. -/
theorem generalRegistersAreStorage : Obligations.GeneralRegistersAreStorage := fun s i v h1 h31 =>
  ⟨s.get_set_same i v ⟨h1, h31⟩, fun j hj => s.get_set_ne i j v hj.symm⟩

/-- Settles O3: the branches of `get`, one by one. -/
theorem registerReadByIndex : Obligations.RegisterReadByIndex := fun s =>
  ⟨rfl, s.get_general, rfl, rfl, rfl, s.get_above⟩

end Sys2Proof.Machine
end

section
/-! Memory (20_memory.md): the accessors said by address, what an instruction other than SW leaves of memory, and the
step that runs a stored word. -/

namespace Sys2Proof.Machine

/-! ### Addresses -/

/-- Counting on from the next address (R54: modulo 2^32). -/
theorem add_one_add_ofNat (a : Word) (i : Nat) : a + 1 + BitVec.ofNat 32 i = a + BitVec.ofNat 32 (i + 1) := by
  rw [BitVec.add_assoc, Nat.add_comm, BitVec.ofNat_add]
  rfl

/-- The distance from `a` of the address `i` further on. -/
theorem toNat_add_ofNat_sub (a : Word) {i : Nat} (h : i < 2 ^ 32) : (a + BitVec.ofNat 32 i - a).toNat = i := by
  rw [BitVec.add_comm, BitVec.add_sub_cancel, BitVec.toNat_ofNat, Nat.mod_eq_of_lt h]

/-! ### MemRead (R52) -/

theorem memRead_succ (m : Memory) (a : Word) (n : Nat) :
    memRead m a (n + 1) = (readByte m a).toNat + 256 * memRead m (a + 1) n := rfl

/-- `MemRead` of any width is the sum of its bytes, each shifted to its place. -/
theorem memRead_eq_sum (m : Memory) (a : Word) (n : Nat) :
    memRead m a n = ((List.range n).map fun i => (readByte m (a + BitVec.ofNat 32 i)).toNat <<< (8 * i)).sum := by
  induction n generalizing a with
  | zero => rfl
  | succ n ih =>
    have hshift (v i : Nat) : v <<< (8 * (i + 1)) = 256 * v <<< (8 * i) := by
      rw [Nat.mul_add, Nat.mul_one, Nat.shiftLeft_add, Nat.shiftLeft_eq _ 8, Nat.mul_comm]
    rw [memRead_succ, ih, List.range_succ_eq_map, List.map_cons, List.sum_cons, List.map_map, ← List.sum_map_mul_left]
    simp only [add_one_add_ofNat, Function.comp_def, hshift, BitVec.add_zero, Nat.mul_zero, Nat.shiftLeft_zero]

theorem memRead_lt (m : Memory) (a : Word) (n : Nat) : memRead m a n < 2 ^ (8 * n) := by
  have h := leNat_lt (readBytes m a n)
  rwa [readBytes_length, show 256 = 2 ^ 8 from rfl, ← Nat.pow_mul] at h

/-- Settles O7: `memRead_eq_sum` holds for every width, and the bound makes the named accessors lose nothing. -/
theorem memReadIsLittleEndianSum : Obligations.MemReadIsLittleEndianSum :=
  ⟨fun m a n _ => ⟨memRead_eq_sum m a n, memRead_lt m a n⟩, fun m a =>
    ⟨BitVec.toNat_ofNat .. ▸ Nat.mod_eq_of_lt (memRead_lt m a 2),
      BitVec.toNat_ofNat .. ▸ Nat.mod_eq_of_lt (memRead_lt m a 4)⟩⟩

/-! ### MemWrite (R53) -/

/-- Byte `i` of those written. -/
theorem readByte_memWrite_at {m : Memory} (a : Word) {n i : Nat} (v : Nat) (w : Memory.wf m = true)
    (hn : n ≤ 2 ^ 32) (hi : i < n) :
    readByte (memWrite m a n v) (a + BitVec.ofNat 32 i) = BitVec.ofNat 8 (v >>> (8 * i)) := by
  rw [memWrite, readByte_writeBytes _ _ _ w (by simpa using hn), toNat_add_ofNat_sub a (by omega),
    leBytes_getElem? _ _ _ hi, Option.getD_some]

/-- Masking the low eight bits of what is put in a byte changes nothing. -/
theorem ofNat_and_0xFF (v : Nat) : BitVec.ofNat 8 (v &&& 0xFF) = BitVec.ofNat 8 v := by
  rw [show 0xFF = 2 ^ 8 - 1 from rfl, Nat.and_two_pow_sub_one_eq_mod]
  exact BitVec.eq_of_toNat_eq (by simp)

theorem SignalsThenWrites.mem_eq {s : State} {f : Reg → State} (h : SignalsThenWrites s f) (r : Reg) :
    (f r).mem = s.mem := by
  obtain ⟨u, hu, hf⟩ := h
  obtain ⟨v, hv⟩ := hf r
  rcases hu with rfl | ⟨k, rfl⟩ <;> simp [hv]

/-- Only SW, and the slot of a JAL or BGTZ, writes memory: an instruction with a destination field writes that alone, and
of those without one JR writes PC and SYSCALL the events. -/
theorem exec_mem_eq {i : Instr} {s t : State} (h : exec i s = .next t) (hsw : ∀ rt rs imm, i ≠ .sw rt rs imm)
    (hd : i.isDelayedTransfer = false) : t.mem = s.mem := by
  cases hdest : destination i with
  | some d =>
    obtain ⟨f, hf, hexec⟩ := exec_withDestination hdest s
    have := hexec d
    rw [withDestination_destination hdest, h] at this
    cases this
    exact hf.mem_eq d
  | none =>
    cases i with
    | jr | syscall => cases h; rfl
    | sw rt rs imm => exact absurd rfl (hsw rt rs imm)
    | jal | bgtz => cases hd
    | _ => cases hdest

/-- Settles O8, from the laws of byte ranges and `exec_mem_eq`. -/
theorem memWriteStoresLittleEndian : Obligations.MemWriteStoresLittleEndian := by
  refine ⟨fun m a n v w hn => ?_, fun m a v w => readWord_writeWord a v w, fun m a v w => readHalf_writeHalf a v w,
    fun i s t h hsw hd => exec_mem_eq h hsw hd⟩
  have hn : n ≤ 2 ^ 32 := by
    simp only [List.mem_cons, List.not_mem_nil, or_false] at hn
    omega
  refine ⟨fun i hi => ?_, fun x hx => ?_, ?_⟩
  · rw [ofNat_and_0xFF, readByte_memWrite_at a v w hn hi]
  · exact readByte_writeBytes_outside w (by simpa using hn) (by simpa using hx)
  · rw [memRead_memWrite a n v w hn, show 256 = 2 ^ 8 from rfl, ← Nat.pow_mul]

/-! ### Running a stored word (R50) -/

/-- Every instruction completes unless a control transfer stands in its slot, and an ordinary one leaves PC to the
step's advance (40_step_cycle.md R117, R121). -/
theorem exec_completes {i : Instr} {s : State}
    (h : i.isDelayedTransfer = true → (inSlot s).any Instr.isTransfer = false) :
    ∃ t, exec i s = .next t ∧ (i.isTransfer = false → t.pc = s.pc) := by
  cases hi : i.isTransfer with
  | false =>
    obtain ⟨t, hexec, -, heffect⟩ := exec_ordinary i s hi
    exact ⟨t, hexec, fun _ => heffect.pc_eq⟩
  | true =>
    cases i with
    | jr rs => exact ⟨_, rfl, nofun⟩
    | jal idx =>
      obtain ⟨u, -, hu, -⟩ := runSlot_runs s (h rfl)
      exact ⟨linkAndJump idx u, by rw [exec, execJal, hu, thenNext_next], nofun⟩
    | bgtz rs imm =>
      obtain ⟨u, -, hu, -⟩ := runSlot_runs s (h rfl)
      exact ⟨branchIfTaken rs imm u, by rw [exec, execBgtz, hu, thenNext_next], nofun⟩
    | _ => cases hi

/-- A fetch takes the word stored at its address, whatever the address. -/
theorem fetchAt_writeWord {s : State} (a w : Word) (h : Memory.wf s.mem = true) :
    State.fetchAt { s with mem := writeWord s.mem a w } a = w := readWord_writeWord a w h

/-- Settles O6, by the byte laws of memory, the fetch of a stored word and `exec_completes`. -/
theorem everyByteIsPlainStorage : Obligations.EveryByteIsPlainStorage := by
  refine ⟨fun m a b w => ⟨writeByte_wf a b w, ?_, fun x hx => ?_⟩,
    fun s rt rs imm => ⟨⟨_, rfl⟩, ⟨_, rfl⟩, ⟨_, rfl⟩, ⟨_, rfl⟩⟩, fun s a w h => fetchAt_writeWord a w h,
    fun s w hwf ha => ?_⟩
  · rw [readByte_writeByte a a b w, if_pos rfl]
  · rw [readByte_writeByte a x b w, if_neg hx]
  · intro s'
    have hstep : step s' = thenNext (execWord w s'.beginStep) State.advance := by
      rw [step_of_aligned (s := s') ha, show s'.fetchAt s'.pc = w from fetchAt_writeWord s.pc w hwf]
    refine ⟨fun i hi => ?_, fun e he => ?_⟩
    · rw [execWord_ok hi] at hstep
      refine ⟨hstep, fun hslot => ?_⟩
      obtain ⟨t, ht, hpc⟩ := exec_completes (s := s'.beginStep) hslot
      refine ⟨t.advance, by rw [hstep, ht, thenNext_next], fun hi => ?_⟩
      rw [State.advance_pc, hpc hi]
      rfl
    · rw [hstep, execWord_error he]
      rfl

end Sys2Proof.Machine
end

section
/-! The logical instructions (41_logical.md): each is one register write, from which its result and its frame follow. -/

namespace Sys2Proof.Machine

/-- An instruction that does nothing but write `v` to register `r` completes, and has the frame of that write. -/
theorem onlyRegister_of_exec_eq_setX {i : Instr} {s : State} {r : Reg} {v : Word}
    (h : exec i s = .next (s.setX r v)) : ∃ t, exec i s = .next t ∧ OnlyRegister s t r v :=
  ⟨s.setX r v, h, onlyRegister_setX s r v⟩

/-- Settles O20: the handler of each of the seven is the write of its bitwise result (R131 to R137, in this order). -/
theorem logicalInstructions : Obligations.LogicalInstructions := by
  intro s rd rs rt imm
  refine ⟨?and, ?or, ?xor, ?nor, ?andi, ?ori, ?xori⟩ <;> exact onlyRegister_of_exec_eq_setX rfl

end Sys2Proof.Machine
end

section
/-! Bit counts, load upper and conditional moves (44_bitcount_lui_move.md): each is one register write, at every PC the
same. -/

namespace Sys2Proof.Machine

/-- Register writes and PC writes commute: PC is no general register. -/
theorem State.setPc_setX (s : State) (p : Word) (r : Reg) (v : Word) :
    (s.setPc p).setX r v = (s.setX r v).setPc p := by
  have hr := r.isLt
  unfold State.setX State.set
  split
  · rfl
  · rw [if_neg (by omega), if_neg (by omega)]

/-- A conditional register write is a write in either case: when it does not move, of the old value. -/
theorem State.ite_setX (s : State) (c : Prop) [Decidable c] (r : Reg) (v : Word) :
    (if c then s.setX r v else s) = s.setX r (if c then v else s.x r) := by
  by_cases hc : c
  · rw [if_pos hc, if_pos hc]
  · rw [if_neg hc, if_neg hc, State.setX_x]

/-- `i` does nothing but write its destination, and what it writes from `s` is the same whatever PC is. -/
def WritesAtEveryPc (i : Instr) (s : State) : Prop :=
  ∃ r v, destination i = some r ∧ ∀ p, exec i (s.setPc p) = .next ((s.setPc p).setX r v)

/-- The frame of R155 in the terms of the model: from every PC, a next state that differs from the start in the
destination alone. -/
theorem WritesAtEveryPc.frame {i : Instr} {s : State} (h : WritesAtEveryPc i s) :
    ∃ t, exec i s = .next t ∧ (∃ r v, destination i = some r ∧ OnlyRegister s t r v) ∧
      ∀ p, exec i (s.setPc p) = .next (t.setPc p) := by
  obtain ⟨r, v, hdest, hexec⟩ := h
  exact ⟨s.setX r v, hexec s.pc, ⟨r, v, hdest, onlyRegister_setX s r v⟩, fun p => by rw [hexec, State.setPc_setX]⟩

/-- CLZ (R156): the count is of a general register, which a change of PC leaves. -/
theorem writesAtEveryPc_clz (s : State) (rd rs : Reg) : WritesAtEveryPc (.clz rd rs) s :=
  ⟨rd, BitVec.ofNat 32 (clzCount Config.bitCount (s.x rs)), rfl, fun p => by rw [exec, execClz, State.setPc_x]⟩

/-- CLO (R157). -/
theorem writesAtEveryPc_clo (s : State) (rd rs : Reg) : WritesAtEveryPc (.clo rd rs) s :=
  ⟨rd, BitVec.ofNat 32 (cloCount Config.bitCount (s.x rs)), rfl, fun p => by rw [exec, execClo, State.setPc_x]⟩

/-- LUI (R158) reads the immediate alone. -/
theorem writesAtEveryPc_lui (s : State) (rt : Reg) (imm : Imm16) : WritesAtEveryPc (.lui rt imm) s :=
  ⟨rt, upperImm imm, rfl, fun _ => rfl⟩

/-- MOVZ (R159): test, source and old destination are general registers. -/
theorem writesAtEveryPc_movz (s : State) (rd rs rt : Reg) : WritesAtEveryPc (.movz rd rs rt) s :=
  ⟨rd, if s.x rt = 0 then s.x rs else s.x rd, rfl, fun p => by
    rw [exec, execMovz, State.ite_setX]; simp only [State.setPc_x]⟩

/-- MOVN (R160), likewise. -/
theorem writesAtEveryPc_movn (s : State) (rd rs rt : Reg) : WritesAtEveryPc (.movn rd rs rt) s :=
  ⟨rd, if s.x rt ≠ 0 then s.x rs else s.x rd, rfl, fun p => by
    rw [exec, execMovn, State.ite_setX]; simp only [State.setPc_x]⟩

/-- Settles O26: each of the five writes its destination alone and the same at every PC, and `popcount` is the
cardinality that `popcount_eq_card` says. -/
theorem countAndMoveFrames : Obligations.CountAndMoveFrames := by
  refine ⟨fun i s rd rs rt imm hi => WritesAtEveryPc.frame ?_, fun v => ⟨popcount_eq_card v, popcount_le v⟩⟩
  simp only [List.mem_cons, List.not_mem_nil, or_false] at hi
  obtain rfl | rfl | rfl | rfl | rfl := hi
  · exact writesAtEveryPc_clz s rd rs
  · exact writesAtEveryPc_clo s rd rs
  · exact writesAtEveryPc_lui s rt imm
  · exact writesAtEveryPc_movz s rd rs rt
  · exact writesAtEveryPc_movn s rd rs rt

end Sys2Proof.Machine
end

section
/-! Decoding (30_encoding.md): every row's words decode to its instruction, selection is by opcode and function code, and
the masks of R90 say the same of the words themselves. -/

namespace Sys2Proof

open Machine

/-! ### The words of a row (R83, R85) -/

section words
variable {op f : BitVec 6} {rs rt rd : Reg} {sh : BitVec 5} {imm : Imm16} {idx : Index26}

theorem decode_rWord (h : isSpecial op = true) :
    decode (rWord op rs rt rd sh f) = select ⟨op, rs, rt, .register rd f⟩ := by
  rw [decode, describe_special _ (by simpa using h)]; simp

theorem decode_iWord (h : isSpecial op = false) :
    decode (iWord op rs rt imm) = select ⟨op, rs, rt, .immediate imm⟩ := by
  rw [decode, describe_direct _ (by simpa using h)]; simp

/-- The bits a row with a function code ignores are free. -/
theorem decode_registerForm {i : Instr} (h : i ∈ registerForms rs rt rd) :
    decode (rWord (opc i) rs rt rd sh ((fn i).getD 0)) = .ok i := by
  simp only [registerForms, List.mem_cons, List.not_mem_nil, or_false] at h
  rcases h with rfl | rfl | rfl | rfl | rfl | rfl | rfl | rfl | rfl | rfl | rfl | rfl | rfl | rfl | rfl <;>
    exact (decode_rWord rfl).trans rfl

theorem decode_immediateForm {i : Instr} (h : i ∈ immediateForms rs rt imm) :
    decode (iWord (opc i) rs rt imm) = .ok i := by
  simp only [immediateForms, List.mem_cons, List.not_mem_nil, or_false] at h
  rcases h with rfl | rfl | rfl | rfl | rfl | rfl | rfl | rfl | rfl | rfl | rfl | rfl | rfl | rfl <;>
    exact (decode_iWord rfl).trans rfl

/-- JAL's index is the 26 bits under its opcode (R87). -/
theorem decode_jal : decode (jWord 0x03 idx) = .ok (.jal idx) := by
  have hjal (rs rt : Reg) (imm : Imm16) :
      select ⟨0x03, rs, rt, .immediate imm⟩ = .ok (.jal (jalIndex rs rt imm)) := rfl
  rw [decode, describe_direct _ (by rw [opcodeOf_jWord]; rfl), opcodeOf_jWord, hjal, jalIndex_jWord]

end words

/-- Settles O14: each row's word is the R or I word of its form, or JAL's J word. -/
theorem everyRowDecodesWithIgnoredBitsFree : Obligations.EveryRowDecodesWithIgnoredBitsFree := by
  intro rs rt rd sh imm idx
  have hR : ∀ i ∈ registerForms rs rt rd, decode (rWord (opc i) rs rt rd sh ((fn i).getD 0)) = .ok i :=
    fun _ => decode_registerForm
  have hI : ∀ i ∈ immediateForms rs rt imm, decode (iWord (opc i) rs rt imm) = .ok i := fun _ => decode_immediateForm
  simp only [registerForms, immediateForms, List.forall_mem_cons] at hR hI
  obtain ⟨jr, movz, movn, syscall, add, addu, sub, subu, and, or, xor, nor, slt, clz, clo, -⟩ := hR
  obtain ⟨-, bgtz, addi, addiu, slti, sltiu, andi, ori, xori, lui, lb, lh, lw, sw, -⟩ := hI
  exact ⟨and, or, xor, nor, slt, add, addu, sub, subu, movz, movn, jr, syscall, clz, clo, andi, ori, xori, slti, sltiu,
    addi, addiu, lui, bgtz, lb, lh, lw, sw, decode_jal⟩

/-! ### The encoder (R83, R96) -/

/-- The encoder builds a word of the instruction's row with its fields in their places. -/
theorem decode_encode (i : Instr) : decode (encode i) = .ok i := by
  cases i with
  | and | or | xor | nor | slt | add | addu | sub | subu | clz | clo | movz | movn | jr | syscall =>
    exact decode_registerForm (by simp [registerForms])
  | jal => exact decode_jal
  | _ => exact decode_immediateForm (by simp [immediateForms])

/-- A byte sequence that begins with a word's bytes decodes as the word does (R80). -/
theorem decodeBytes_leBytes {w : Word} {i : Instr} (h : decode w = .ok i) (rest : List Byte) :
    decodeBytes (leBytes 4 w.toNat ++ rest) = .ok (i, rest) := by
  have hw : BitVec.ofNat 32 (leNat (leBytes 4 w.toNat)) = w := by
    rw [leNat_leBytes, show 256 ^ 4 = 2 ^ 32 from rfl, Nat.mod_eq_of_lt w.isLt, BitVec.ofNat_toNat, BitVec.setWidth_eq]
  rw [← hw] at h
  simp only [leBytes] at h ⊢
  simp only [List.cons_append, List.nil_append, decodeBytes, h]

/-- Settles O16: the word by the rows, and the bytes by the word. -/
theorem decodeOfEncodeIsTheInstruction : Obligations.DecodeOfEncodeIsTheInstruction := fun i rest =>
  ⟨decode_encode i, decodeBytes_leBytes (decode_encode i) rest⟩

/-- Settles O17: the decoder run on fourteen words. -/
theorem writtenOutWordsDecode : Obligations.WrittenOutWordsDecode := by
  unfold Obligations.WrittenOutWordsDecode
  decide

/-! ### Selection (R84) -/

/-- What selects an instruction: its opcode and its function code. -/
def selector (i : Instr) : BitVec 6 × Option (BitVec 6) := (opc i, fn i)

/-- The selector in a word: its opcode, and its function code exactly when the opcode is one that selects by it. -/
def selectorOf (w : Word) : BitVec 6 × Option (BitVec 6) :=
  (opcodeOf w, if isSpecial (opcodeOf w) then some (functOf w) else none)

theorem isSpecial_iff (op : BitVec 6) : isSpecial op = true ↔ op = 0x00#6 ∨ op = 0x1C#6 := by simp [isSpecial]

/-- `decode_selector` in one equation. -/
theorem selector_of_decode {w : Word} {i : Instr} (h : decode w = .ok i) : selector i = selectorOf w :=
  Prod.ext (decode_selector h).1 (decode_selector h).2

theorem find?_map_selector {l l' : List Instr} (h : l.map selector = l'.map selector)
    (p : BitVec 6 × Option (BitVec 6) → Bool) :
    (l.find? fun i => p (selector i)).map selector = (l'.find? fun i => p (selector i)).map selector := by
  have := congrArg (List.find? p) h
  rwa [List.find?_map, List.find?_map] at this

theorem registerForms_selectors (rs rt rd : Reg) :
    (registerForms rs rt rd).map selector = (registerForms 0 0 0).map selector := by
  simp [registerForms, selector, opc, fn]

theorem immediateForms_selectors (rs rt : Reg) (imm : Imm16) :
    (immediateForms rs rt imm).map selector = (immediateForms 0 0 0).map selector := by
  simp [immediateForms, selector, opc, fn]

/-- The row found does not depend on the fields beside the function code. -/
theorem select_register_row (op f : BitVec 6) (rs rt rd : Reg) :
    (select ⟨op, rs, rt, .register rd f⟩).toOption.map selector =
      (select ⟨op, 0, 0, .register 0 f⟩).toOption.map selector := by
  have h (rs rt rd : Reg) : (select ⟨op, rs, rt, .register rd f⟩).toOption =
      (registerForms rs rt rd).find? fun i => opc i == op && fn i == some f := by
    simp only [select]
    split <;> next hfind => rw [hfind]; rfl
  rw [h, h]
  exact find?_map_selector (registerForms_selectors rs rt rd) fun p => p.1 == op && p.2 == some f

/-- The row found does not depend on the fields beside the opcode. -/
theorem select_immediate_row (op : BitVec 6) (rs rt : Reg) (imm : Imm16) :
    (select ⟨op, rs, rt, .immediate imm⟩).toOption.map selector =
      (select ⟨op, 0, 0, .immediate 0⟩).toOption.map selector := by
  have h (rs rt : Reg) (imm : Imm16) : (select ⟨op, rs, rt, .immediate imm⟩).toOption =
      (immediateForms rs rt imm).find? fun i => opc i == op := by
    simp only [select]
    split <;> next hfind => rw [hfind]; rfl
  rw [h, h]
  exact find?_map_selector (immediateForms_selectors rs rt imm) fun p => p.1 == op

/-- Two words with one selector select the same row, or both none. -/
theorem decode_map_selector_congr {w w' : Word} (h : selectorOf w = selectorOf w') :
    (decode w).toOption.map selector = (decode w').toOption.map selector := by
  obtain ⟨hop, hfn⟩ := Prod.mk.inj h
  unfold decode
  cases hs : isSpecial (opcodeOf w) with
  | true =>
    have hs' : isSpecial (opcodeOf w') = true := hop ▸ hs
    rw [hs, hs', if_pos rfl, if_pos rfl] at hfn
    rw [describe_special w hs, describe_special w' hs', select_register_row, select_register_row _ _ (rsOf w'), hop,
      Option.some.inj hfn]
  | false =>
    have hs' : isSpecial (opcodeOf w') = false := hop ▸ hs
    rw [describe_direct w hs, describe_direct w' hs', select_immediate_row, select_immediate_row _ (rsOf w'), hop]

/-- Settles O13: a decoded instruction has its word's selector, and the selector decides the row. -/
theorem selectionByOpcodeAndFunctionAlone : Obligations.SelectionByOpcodeAndFunctionAlone := by
  simp only [Obligations.SelectionByOpcodeAndFunctionAlone, ← isSpecial_iff]
  refine ⟨fun w i h => ?_, fun w w' ho hf => ?_⟩
  · obtain ⟨hop, hfn⟩ := decode_selector h
    exact ⟨hop, fun hs => by rw [hfn, if_pos hs], fun hs => by rw [hfn, if_neg hs]⟩
  · have hsel : selectorOf w = selectorOf w' := by
      unfold selectorOf
      rw [← ho]
      split
      · next hs => rw [hf hs]
      · rfl
    have := congrArg (Option.map fun p => rWord p.1 0 0 0 0 (p.2.getD 0)) (decode_map_selector_congr hsel)
    rwa [Option.map_map, Option.map_map] at this

/-! ### Masks and match values (R90) -/

/-- A word is its R-format fields. -/
theorem rWord_fields (w : Word) :
    rWord (opcodeOf w) (rsOf w) (rtOf w) (rdOf w) (w.extractLsb' 6 5) (functOf w) = w := by
  unfold rWord opcodeOf rsOf rtOf rdOf functOf; ext i hi; simp; grind

theorem iWord_fields (w : Word) : iWord (opcodeOf w) (rsOf w) (rtOf w) (immOf w) = w := by
  unfold iWord opcodeOf rsOf rtOf immOf; ext i hi; simp; grind

theorem and_selectorMask (w : Word) (i : Instr) : w &&& selectorMask i =
    rWord (opcodeOf w) 0 0 0 0 (if (fn i).isSome then functOf w else 0) := by
  unfold selectorMask
  split
  · rw [← Laws.Selector.rWord_mask _ _ (rsOf w) (rtOf w) (rdOf w) (w.extractLsb' 6 5), rWord_fields]
  · rw [← Laws.Selector.iWord_mask _ (rsOf w) (rtOf w) (immOf w), iWord_fields]

theorem rWord_zero_inj {op op' f f' : BitVec 6} :
    rWord op 0 0 0 0 f = rWord op' 0 0 0 0 f' ↔ op = op' ∧ f = f' := by
  refine ⟨fun h => ⟨?_, ?_⟩, fun ⟨ho, hf⟩ => ho ▸ hf ▸ rfl⟩
  · simpa using congrArg opcodeOf h
  · simpa using congrArg functOf h

/-- The rows with a function code are those under SPECIAL and SPECIAL2. -/
theorem isSpecial_opc (i : Instr) : isSpecial (opc i) = (fn i).isSome := by cases i <;> rfl

/-- A word matches the mask and value of an instruction's row exactly when it holds its selector. -/
theorem and_selectorMask_eq_iff (w : Word) (i : Instr) :
    w &&& selectorMask i = selectorBits i ↔ selectorOf w = selector i := by
  rw [and_selectorMask, selectorBits, rWord_zero_inj, selectorOf, selector, Prod.mk.injEq]
  refine and_congr_right fun ho => ?_
  rw [ho, isSpecial_opc]
  cases fn i <;> simp

theorem ok_of_toOption {x : Except Unrecognized Instr} {i : Instr} (h : x.toOption = some i) : x = .ok i := by
  cases x <;> cases h; rfl

/-- Settles O15: to match a row is to hold its selector, the selector decides the row, and the row's own word is
recognised. -/
theorem recognisedExactlyWhenARowMatches : Obligations.RecognisedExactlyWhenARowMatches := by
  simp only [Obligations.RecognisedExactlyWhenARowMatches, and_selectorMask_eq_iff]
  refine ⟨fun w i h => (selector_of_decode h).symm, fun w i h => ?_, fun w i j hi hj => ?_⟩
  · have hrow := decode_map_selector_congr (h.trans (selector_of_decode (decode_encode i)))
    rw [decode_encode] at hrow
    obtain ⟨j, hj, hsel⟩ := Option.map_eq_some_iff.1 hrow
    obtain ⟨hop, hfn⟩ := Prod.mk.inj hsel
    refine ⟨j, ok_of_toOption hj, ?_, ?_⟩
    · rw [selectorMask, selectorMask, hfn]
    · rw [selectorBits, selectorBits, hop, hfn]
  · exact Prod.mk.inj (hi.symm.trans hj)

end Sys2Proof
end

section
/-! The words memory holds (20_memory.md, 30_encoding.md section 5): canonical memories, segments loaded by the host, and
what a step makes of a loaded, a stored and an unrecognized word. -/

namespace Sys2Proof.Machine

/-! ### Canonical memories (log 37) -/

theorem Memory.wfFrom_cons {lo k : Nat} {b : Byte} {m : Memory} :
    Memory.wfFrom lo ((k, b) :: m) = true ↔
      lo ≤ k ∧ k < 2 ^ 32 ∧ b ≠ Config.unlistedByte ∧ Memory.wfFrom (k + 1) m = true := by
  simp [Memory.wfFrom, and_assoc]

/-- A canonical memory that reads as unlisted everywhere lists nothing. -/
theorem Memory.eq_nil_of_lookup {lo : Nat} {m : Memory} (w : Memory.wfFrom lo m = true)
    (h : ∀ a < 2 ^ 32, lookup m a = Config.unlistedByte) : m = [] := by
  cases m with
  | nil => rfl
  | cons c m =>
    obtain ⟨-, hk, hb, -⟩ := Memory.wfFrom_cons.1 w
    exact absurd (by simpa [lookup] using h c.1 hk) hb

/-- The first address listed is one where a memory that lists only higher addresses reads otherwise. -/
theorem Memory.not_lt_of_lookup {lo k l : Nat} {b c : Byte} {m n : Memory}
    (w : Memory.wfFrom lo ((k, b) :: m) = true) (w' : Memory.wfFrom lo ((l, c) :: n) = true)
    (h : ∀ a < 2 ^ 32, lookup ((k, b) :: m) a = lookup ((l, c) :: n) a) : ¬ k < l := by
  intro hkl
  obtain ⟨-, hk, hb, -⟩ := Memory.wfFrom_cons.1 w
  obtain ⟨-, hl, hc, wn⟩ := Memory.wfFrom_cons.1 w'
  have hl' : Memory.wfFrom l ((l, c) :: n) = true := Memory.wfFrom_cons.2 ⟨Nat.le_refl l, hl, hc, wn⟩
  have := h k hk
  rw [lookup_below hkl hl', lookup, if_pos rfl] at this
  exact hb this

/-- Canonical memories are compared entry by entry: the addresses below those of the rest read as unlisted in both. -/
theorem Memory.eq_of_lookup {lo : Nat} {m n : Memory} (w : Memory.wfFrom lo m = true) (w' : Memory.wfFrom lo n = true)
    (h : ∀ a < 2 ^ 32, lookup m a = lookup n a) : m = n := by
  induction m generalizing lo n with
  | nil => exact (Memory.eq_nil_of_lookup w' fun a ha => (h a ha).symm).symm
  | cons p m ih =>
    obtain ⟨k, b⟩ := p
    cases n with
    | nil => exact Memory.eq_nil_of_lookup w h
    | cons q n =>
      obtain ⟨l, c⟩ := q
      have hkl : k = l := Nat.le_antisymm
        (Nat.not_lt.1 (Memory.not_lt_of_lookup w' w fun a ha => (h a ha).symm))
        (Nat.not_lt.1 (Memory.not_lt_of_lookup w w' h))
      subst hkl
      obtain ⟨-, hk, -, wm⟩ := Memory.wfFrom_cons.1 w
      obtain ⟨-, -, -, wn⟩ := Memory.wfFrom_cons.1 w'
      have hbc : b = c := by simpa [lookup] using h k hk
      have hmn : m = n := ih wm wn fun a ha => by
        by_cases hak : a = k
        · rw [lookup_below (by omega) wm, lookup_below (by omega) wn]
        · simpa [lookup, hak] using h a ha
      rw [hbc, hmn]

/-- Settles O10, by `Memory.eq_of_lookup`: every address below 2^32 is a word. -/
theorem canonicalMemoryIsDeterminedByItsBytes : Obligations.CanonicalMemoryIsDeterminedByItsBytes :=
  fun m n wm wn h => Memory.eq_of_lookup wm wn fun a ha => by
    have := h (BitVec.ofNat 32 a)
    rwa [readByte, readByte, BitVec.toNat_ofNat, Nat.mod_eq_of_lt ha] at this

/-! ### Loaded segments (20_memory.md section 8) -/

/-- Settles O11, by the laws of byte ranges; `load_segment` touches no other field. -/
theorem loadSegmentCopiesVerbatim : Obligations.LoadSegmentCopiesVerbatim := by
  intro s bytes base w hl
  refine ⟨readBytes_writeBytes base bytes w hl, fun i hi => ?_, fun a ha => ?_, rfl, rfl, ⟨rfl, rfl⟩,
    ⟨rfl, rfl, rfl, rfl⟩, rfl⟩
  · rw [State.loadSegment_mem, readByte_writeBytes _ _ _ w hl, toNat_add_ofNat_sub base (by omega),
      List.getElem?_eq_getElem hi, Option.getD_some]
  · exact readByte_writeBytes_outside w hl ha

/-! ### What a step makes of the word at PC -/

theorem current_of_decode {s : State} {i : Instr} (h : decode (s.fetchAt s.pc) = .ok i) : current s = some i := by
  rw [current, h]; rfl

/-- A step that runs an instruction is its handler, then the advance (R122). -/
theorem step_of_decode {s : State} {i : Instr} (ha : s.pc.toNat % 4 = 0) (h : decode (s.fetchAt s.pc) = .ok i) :
    step s = thenNext (exec i s.beginStep) State.advance := by
  rw [step_of_aligned ha, execWord_ok h]

/-- A step at an unrecognized word is the advance alone (R92, R192). -/
theorem step_of_error {s : State} {e : Unrecognized} (ha : s.pc.toNat % 4 = 0)
    (h : decode (s.fetchAt s.pc) = .error e) : step s = .next s.beginStep.advance := by
  rw [step_of_aligned ha, execWord_error h, thenNext_next]

/-- The handler an ordinary instruction has in a slot is its own (R122). -/
theorem execOrdinary_eq_exec {i : Instr} (s : State) (hi : i.isTransfer = false) : execOrdinary i s = exec i s := by
  obtain ⟨t, hexec, hord, -⟩ := exec_ordinary i s hi
  rw [hexec, hord]

/-- Settles O37, by `step_of_decode` and `execOrdinary_eq_exec`. -/
theorem stepRunsTheDecodedInstruction : Obligations.StepRunsTheDecodedInstruction :=
  ⟨fun _ _ ha hd => step_of_decode ha hd, fun _ s hi => execOrdinary_eq_exec s hi⟩

/-- Settles O18: a word that decodes matches its own row, so one that matches none does not decode. -/
theorem unrecognizedWordIsSilentNoOp : Obligations.UnrecognizedWordIsSilentNoOp := by
  intro s ha hrow
  cases hd : decode (s.fetchAt s.pc) with
  | error e => exact step_of_error ha hd
  | ok i => exact absurd (recognisedExactlyWhenARowMatches.1 _ i hd) (hrow i)

/-- Settles O53: the segment of an instruction's bytes is the store of its word, which the fetch takes and which decodes
to it. -/
theorem loadedInstructionIsTheNextToRun : Obligations.LoadedInstructionIsTheNextToRun := by
  intro s i w s'
  have hfetch : s'.fetchAt s.pc = encode i := fetchAt_writeWord s.pc (encode i) w
  have hdecode : decode (s'.fetchAt s'.pc) = .ok i := by
    rw [State.loadSegment_pc, hfetch, decode_encode]
  refine ⟨hfetch, current_of_decode hdecode, ?_, fun ha => step_of_decode ha hdecode⟩
  have htable : tableBytes 32 (encode i).toNat = encodeBytes i := by
    rw [tableBytes, Nat.mod_eq_of_lt (encode i).isLt, encodeBytes]
  rw [State.withFetchWord, htable]; rfl

/-- SW changes memory by its word store, and leaves PC to the advance (R185). -/
theorem exec_sw_pc_mem {s t : State} {rt rs : Reg} {imm : Imm16} (h : exec (.sw rt rs imm) s = .next t) :
    t.pc = s.pc ∧ t.mem = writeWord s.mem (effectiveAddress s rs imm) (s.x rt) := by
  cases h
  exact ⟨storeWordAt_pc .., storeWordAt_mem ..⟩

/-- Settles O12: the step leaves PC at the address stored to, where the fetch takes the stored word. -/
theorem storedInstructionIsFetchedNext : Obligations.StoredInstructionIsFetchedNext := by
  intro s t rt rs imm w hcur hea hstep
  obtain ⟨-, u, hu, rfl⟩ := step_eq_next hstep
  rw [execWord_ok (current_eq_some hcur)] at hu
  obtain ⟨hpc, hmem⟩ := exec_sw_pc_mem hu
  rw [State.beginStep_pc] at hpc
  rw [show effectiveAddress s.beginStep rs imm = s.pc + 4 from hea] at hmem
  have hfetch : u.advance.fetchAt u.advance.pc = s.x rt := by
    rw [State.fetchAt, State.advance_mem, State.advance_pc, hmem, hpc]
    exact readWord_writeWord _ _ w
  exact ⟨by rw [State.advance_pc, hpc], hfetch, by rw [current, hfetch]⟩

/-! ### Memory nothing is stored in (40_step_cycle.md section 5) -/

/-- The zero word is no row's, so the step is the advance alone. -/
theorem step_of_mem_nil {s : State} (hm : s.mem = []) (ha : s.pc.toNat % 4 = 0) :
    step s = .next s.beginStep.advance := by
  have hfetch : s.fetchAt s.pc = 0 := by rw [State.fetchAt, hm]; rfl
  exact step_of_error (e := .function 0 0) ha (by rw [hfetch]; decide)

theorem run_succ {s t : State} (h : step s = .next t) (n : Nat) :
    Host.Core.run core (n + 1) s = Host.Core.run core n t := by
  simp only [Host.Core.run, show core.step s = .next t from h]

/-- Settles O54, by induction on the number of steps, each the advance of PC. -/
theorem emptyMemoryIsWalkedThrough : Obligations.EmptyMemoryIsWalkedThrough := by
  intro s n hm ha
  induction n generalizing s with
  | zero => rw [run_succ (step_of_mem_nil hm ha)]; rfl
  | succ n ih =>
    have hpc : s.pc + 4 + BitVec.ofNat 32 (4 * (n + 1)) = s.pc + BitVec.ofNat 32 (4 * (n + 1 + 1)) := by
      rw [BitVec.add_assoc, show (4 : Word) = BitVec.ofNat 32 4 from rfl, ← BitVec.ofNat_add, Nat.add_comm 4]
      rfl
    rw [run_succ (step_of_mem_nil hm ha), ih s.beginStep.advance hm (by simp; omega)]
    simp only [State.advance_pc, State.beginStep_pc, hpc]
    rfl

end Sys2Proof.Machine
end

section
/-! Operand values and the instructions that compute with them: the immediates (30_encoding.md section 3), comparison
(42_compare.md), arithmetic (43_arithmetic.md), bit counts and conditional moves (44_bitcount_lui_move.md). -/

namespace Sys2Proof.Machine

/-! ### Immediates and JAL's target -/

/-- A sign-extended 16-bit value lies in the low or the high 2^15 numbers of 32 bits. -/
theorem sext16_toNat_range (v : BitVec 16) : (sext16 v).toNat ≤ 0x7FFF ∨ 0xFFFF8000 ≤ (sext16 v).toNat := by
  have hsext := sext16_toInt v
  rw [BitVec.toInt_eq_toNat_cond, BitVec.toInt_eq_toNat_cond] at hsext
  have := v.isLt
  omega

/-- Settles O19, by the value lemma of each operand. -/
theorem immediateOperandValues : Obligations.ImmediateOperandValues := fun imm =>
  ⟨zext16_toNat imm, sext16_toInt imm, upperImm_toNat imm, branchOffset_toInt imm, sext16_toNat_range imm⟩

/-- The region bits, as fields of the address. -/
theorem regionBits_eq_append (pc : Word) :
    regionBits pc = (pc.extractLsb' 28 4 ++ 0#26 ++ 0#2 : BitVec (4 + 26 + 2)) := by
  have hpc : (pc.extractLsb' 28 4 ++ pc.extractLsb' 2 26 ++ pc.extractLsb' 0 2 : BitVec (4 + 26 + 2)) = pc := by
    ext i hi; simp; grind
  have hmask : 0xF0000000#32 = (BitVec.allOnes 4 ++ 0#26 ++ 0#2 : BitVec (4 + 26 + 2)) := rfl
  rw [regionBits, hmask]
  nth_rw 1 [← hpc]
  rw [BitVec.and_append, BitVec.and_append, BitVec.and_allOnes, BitVec.and_zero, BitVec.and_zero]

/-- The shifted index, as fields of an address. -/
theorem indexShifted_eq_append (idx : Index26) : indexShifted idx = (0#4 ++ idx ++ 0#2 : BitVec (4 + 26 + 2)) := by
  unfold indexShifted; ext i hi; simp; grind

theorem append_two_zeros_toNat {n : Nat} (x : BitVec n) : (x ++ 0#2).toNat % 4 = 0 := by
  rw [BitVec.toNat_append, BitVec.toNat_ofNat, Nat.zero_mod, Nat.or_zero, Nat.shiftLeft_eq]
  omega

/-- Settles O44: region bits and shifted index have no bit in common, so OR is concatenation and AND is 0. -/
theorem jalTargetJoinsRegionAndIndex : Obligations.JalTargetJoinsRegionAndIndex := by
  intro pc idx
  have hor : combine .or (regionBits pc) (indexShifted idx) = pc.extractLsb' 28 4 ++ idx ++ 0#2 := by
    rw [combine, regionBits_eq_append, indexShifted_eq_append, BitVec.or_append, BitVec.or_append]
    simp
  refine ⟨hor, ?_, ?_⟩
  · rw [hor]; exact append_two_zeros_toNat _
  · rw [combine, regionBits_eq_append, indexShifted_eq_append, BitVec.and_append, BitVec.and_append]
    simp

/-! ### Comparison (R140 to R143) -/

theorem ofTest_ltSigned (a b : Word) : ofTest (ltSigned a b) = if a.toInt < b.toInt then 1 else 0 := by
  simp [ofTest, ltSigned]

theorem ofTest_ltUnsigned (a b : Word) : ofTest (ltUnsigned a b) = if a.toNat < b.toNat then 1 else 0 := by
  simp [ofTest, ltUnsigned]

/-- Settles O21: each is the write of its test's outcome. -/
theorem compareInstructions : Obligations.CompareInstructions := by
  intro s rd rs rt imm
  refine ⟨?slt, ?slti, ?sltiu⟩ <;> apply onlyRegister_of_exec_eq_setX
  case slt => rw [exec, execSlt, ofTest_ltSigned]
  case slti => rw [exec, execSlti, ofTest_ltSigned, sext16_toInt]
  case sltiu => rw [exec, execSltiu, ofTest_ltUnsigned]; rfl

/-! ### Arithmetic modulo 2^32 (R149, R150, R152) -/

theorem ofInt_toInt_add (a b : Word) : BitVec.ofInt 32 (a.toInt + b.toInt) = a + b := by
  rw [BitVec.ofInt_add, BitVec.ofInt_toInt, BitVec.ofInt_toInt]

theorem ofInt_toInt_sub (a b : Word) : BitVec.ofInt 32 (a.toInt - b.toInt) = a - b := by
  rw [Int.sub_eq_add_neg, BitVec.ofInt_add, BitVec.ofInt_neg, BitVec.ofInt_toInt, BitVec.ofInt_toInt,
    BitVec.sub_eq_add_neg]

/-- Settles O22: each is the write of its result, taken modulo 2^32. -/
theorem wraparoundArithmetic : Obligations.WraparoundArithmetic := by
  intro s rd rs rt imm
  refine ⟨?addu, ?addiu, ?subu⟩ <;> apply onlyRegister_of_exec_eq_setX
  case addu => rw [exec, execAddu, BitVec.ofNat_add, BitVec.ofNat_toNat, BitVec.ofNat_toNat]; simp
  case addiu =>
    rw [exec, execAddiu, BitVec.ofInt_add, ← sext16_toInt, BitVec.ofInt_toInt]; simp
  case subu =>
    rw [exec, execSubu, Int.sub_eq_add_neg, BitVec.ofInt_add, BitVec.ofInt_neg]; simp [BitVec.sub_eq_add_neg]

/-! ### Signed arithmetic (R145 to R148, R151) -/

theorem fitsSigned_eq_false_iff (e : Int) : fitsSigned e = false ↔ e < -2 ^ 31 ∨ 2 ^ 31 - 1 < e := by
  rw [← Bool.not_eq_true, fitsSigned_iff]; omega

/-- Settles O25: the exact test is the library's signed overflow, whose bit tests are known. -/
theorem overflowBitTestAgrees : Obligations.OverflowBitTestAgrees := by
  intro a b
  refine ⟨?_, ?_, ofInt_toInt_add a b, ofInt_toInt_sub a b⟩
  · have hover : fitsSigned (exactAdd a b) = false ↔ a.saddOverflow b = true := by
      rw [fitsSigned_eq_false_iff, BitVec.saddOverflow, exactAdd]; simp; omega
    rw [hover, BitVec.saddOverflow_eq]; simp
  · have hover : fitsSigned (exactSub a b) = false ↔ a.ssubOverflow b = true := by
      rw [fitsSigned_eq_false_iff, BitVec.ssubOverflow, exactSub]; simp; omega
    rw [hover, BitVec.ssubOverflow_eq]
    cases a.msb <;> cases b.msb <;> simp

/-- Settles O23: when it fits, the exact result is what `writeOrOverflow` writes. -/
theorem signedArithmeticThatFits : Obligations.SignedArithmeticThatFits := by
  intro s rd rs rt imm
  refine ⟨fun hlo hhi => ?add, fun hlo hhi => ?addi, fun hlo hhi => ?sub⟩ <;>
    have hfits := (fitsSigned_iff _).2 ⟨hlo, hhi⟩ <;> apply onlyRegister_of_exec_eq_setX
  case add => rw [exec, execAdd, writeOrOverflow, exactAdd, if_pos hfits]
  case addi => rw [exec, execAddi, writeOrOverflow, exactAdd, sext16_toInt, if_pos hfits]
  case sub => rw [exec, execSub, writeOrOverflow, exactSub, if_pos hfits]

/-- An instruction that only signals an overflow completes, with the fault recorded and everything else unchanged. -/
theorem recordsOverflow_of_exec_eq_signal {i : Instr} {s : State} (h : exec i s = .next (s.signal .overflow)) :
    ∃ t, exec i s = .next t ∧ RecordsFault s t .overflow ∧ SameRegisters s t ∧ t.pc = s.pc ∧ SameConstants s t ∧
      SameMemory s t :=
  ⟨_, h, recordsFault_signal s _, State.signal_x s _, rfl, ⟨rfl, rfl⟩, fun _ => rfl⟩

/-- Settles O24: when it does not fit, `writeOrOverflow` signals. -/
theorem signedOverflowIsRecorded : Obligations.SignedOverflowIsRecorded := by
  intro s rd rs rt imm Overflowed
  refine ⟨fun hout => ?add, fun hout => ?addi, fun hout => ?sub⟩ <;>
    have hover := (fitsSigned_eq_false_iff _).2 hout <;> apply recordsOverflow_of_exec_eq_signal
  case add => rw [exec, execAdd, writeOrOverflow, exactAdd, hover]; rfl
  case addi => rw [exec, execAddi, writeOrOverflow, exactAdd, sext16_toInt, hover]; rfl
  case sub => rw [exec, execSub, writeOrOverflow, exactSub, hover]; rfl

/-! ### Counts, LUI and moves (R156 to R160) -/

/-- Settles O27: each is one register write or nothing, and the counts are cardinalities of sets of bits. -/
theorem countAndMoveResults : Obligations.CountAndMoveResults := by
  intro s rd rs rt imm ones
  refine ⟨onlyRegister_of_exec_eq_setX ?clz, onlyRegister_of_exec_eq_setX ?clo, onlyRegister_of_exec_eq_setX ?lui,
    fun hz => onlyRegister_of_exec_eq_setX ?moves, fun hnz => ?stays, fun hnz => onlyRegister_of_exec_eq_setX ?moves',
    fun hz => ?stays'⟩
  case clz => simp only [ones, ← popcount_eq_card]; rfl
  case clo => simp only [ones, popcount_not]; rfl
  case lui => rw [← upperImm_toNat, BitVec.ofNat_toNat, BitVec.setWidth_eq]; rfl
  case moves => rw [exec, execMovz, if_pos hz]
  case stays => rw [exec, execMovz, if_neg hnz]
  case moves' => rw [exec, execMovn, if_pos hnz]
  case stays' => rw [exec, execMovn, if_neg (not_not_intro hz)]

end Sys2Proof.Machine
end

section
/-! Loads and the store (46_load_store.md): aligned or not, an access is performed at its effective address; the alignment
check only records. -/

namespace Sys2Proof.Machine

/-! ### Loads (R182 to R184) -/

theorem loadFrom_of_aligned {n : Nat} {ea : Word} (rt : Reg) (value : Memory → Word → Word) (s : State)
    (h : ea.toNat % n = 0) : loadFrom n rt ea value s = s.setX rt (value s.mem ea) := by
  rw [loadFrom, checkAligned_of_aligned .load s h]

theorem loadFrom_of_misaligned {n : Nat} {ea : Word} (rt : Reg) (value : Memory → Word → Word) (s : State)
    (h : ea.toNat % n ≠ 0) :
    loadFrom n rt ea value s = (s.signal (.alignment ea .load)).setX rt (value s.mem ea) := by
  rw [loadFrom, checkAligned_of_misaligned .load s h]

/-- Settles O28: an aligned load is one register write, of the bytes at its effective address joined. -/
theorem alignedLoads : Obligations.AlignedLoads := by
  intro s rt rs imm ea
  refine ⟨onlyRegister_of_exec_eq_setX rfl, fun ha => onlyRegister_of_exec_eq_setX ?lh,
    fun ha => onlyRegister_of_exec_eq_setX ?lw⟩
  case lh => rw [← readHalf_eq_append]; exact congrArg _ (loadFrom_of_aligned rt _ s ha)
  case lw => rw [← readWord_eq_append]; exact congrArg _ (loadFrom_of_aligned rt _ s ha)

/-- The fault registers and the events tell a recorded fault; a register write leaves them. -/
theorem RecordsFault.setX {s t : State} {k : FaultKind} (h : RecordsFault s t k) (r : Reg) (v : Word) :
    RecordsFault s (t.setX r v) k := by
  simpa [RecordsFault] using h

/-- An instruction that signals and then writes a register completes, with the fault recorded and the write made. -/
theorem recordsFault_of_exec_eq_signal_setX {i : Instr} {s : State} {k : FaultKind} {r : Reg} {v : Word}
    (h : exec i s = .next ((s.signal k).setX r v)) :
    ∃ t, exec i s = .next t ∧ RecordsFault s t k ∧ RegisterReceives s t r v ∧ t.pc = s.pc ∧ SameConstants s t ∧
      SameMemory s t :=
  ⟨_, h, (recordsFault_signal s k).setX r v, registerReceives_signal_setX s k r v, by simp, by simp [SameConstants],
    by simp [SameMemory]⟩

/-- Settles O29: a misaligned load signals, and then writes the same bytes an aligned one would. -/
theorem misalignedLoadsStillLoad : Obligations.MisalignedLoadsStillLoad := by
  intro s rt rs imm ea
  refine ⟨fun ha => recordsFault_of_exec_eq_signal_setX ?lh, fun ha => recordsFault_of_exec_eq_signal_setX ?lw⟩
  case lh => rw [← readHalf_eq_append]; exact congrArg _ (loadFrom_of_misaligned rt _ s ha)
  case lw => rw [← readWord_eq_append]; exact congrArg _ (loadFrom_of_misaligned rt _ s ha)

/-! ### The store (R185) -/

theorem sameMemoryOutside_of_writeWord {s t : State} {ea v : Word} (w : Memory.wf s.mem = true)
    (h : t.mem = writeWord s.mem ea v) : SameMemoryOutside s t ea 4 := fun a ha => by
  rw [h]; exact readByte_writeBytes_outside w (by simp) (by simpa using ha)

theorem recordsFault_storeWordAt {ea : Word} (v : Word) (s : State) (h : ea.toNat % 4 ≠ 0) :
    RecordsFault s (storeWordAt ea v s) (.alignment ea .store) := by
  rw [storeWordAt, checkAligned_of_misaligned .store s h]
  exact recordsFault_signal s (.alignment ea .store)

/-- Settles O30, by the bytes of a stored word and the two outcomes of the alignment check. -/
theorem storeWord : Obligations.StoreWord := by
  intro s rt rs imm w ea
  have hbyte (i : Nat) (hi : i < 4) : readByte (storeWordAt ea (s.x rt) s).mem (ea + BitVec.ofNat 32 i) =
      (s.x rt).extractLsb' (8 * i) 8 := readByte_writeWord_at ea (s.x rt) i hi w
  refine ⟨storeWordAt ea (s.x rt) s, rfl, rfl, ?_, hbyte 1 (by omega), hbyte 2 (by omega), hbyte 3 (by omega),
    sameMemoryOutside_of_writeWord w rfl, storeWordAt_x ea _ s, ⟨by simp, by simp⟩, by simp, fun ha => ?_,
    recordsFault_storeWordAt _ s⟩
  · simpa using hbyte 0 (by omega)
  · rw [storeWordAt, checkAligned_of_aligned .store s ha]
    exact ⟨⟨rfl, rfl, rfl, rfl⟩, rfl⟩

/-- Settles O31: the load reads the memory the store left, at the same address. -/
theorem loadGivesBackTheStoredWord : Obligations.LoadGivesBackTheStoredWord := by
  intro s t u rt rs rt' rs' imm imm' w hstore hea hload hrt'
  obtain ⟨-, hmem⟩ := exec_sw_pc_mem hstore
  cases hload
  rw [loadFrom, State.x_setX_same _ _ _ hrt', hea, hmem, readWord_writeWord _ _ w]

end Sys2Proof.Machine
end

section
/-! Faults and events (60_exceptions.md): what an instruction records, and from it what a step does. -/

namespace Sys2Proof.Machine

/-- Settles O33: `signal` touches neither PC, registers nor memory, and `exec_completes`. -/
theorem faultsNeverRedirectOrHalt : Obligations.FaultsNeverRedirectOrHalt := by
  refine ⟨fun s k => ⟨rfl, rfl, rfl, State.signal_x s k, fun _ => rfl, rfl, rfl⟩, fun s i hi => ?_, fun s i hslot => ?_⟩
  · obtain ⟨t, hexec, -, heffect⟩ := exec_ordinary i s hi
    exact ⟨t, hexec, heffect.pc_eq⟩
  · obtain ⟨t, hexec, -⟩ := exec_completes hslot
    exact ⟨t, hexec⟩

/-- Settles O34, by cases of `causeCode`: the address is not read. -/
theorem causeCodesAreDistinct : Obligations.CauseCodesAreDistinct := fun _ _ =>
  ⟨by simp [Config.causeCode], by simp [Config.causeCode], by simp [Config.causeCode], rfl, rfl⟩

/-! ### What an instruction records (R201, R205, R209) -/

/-- No fault and no event. -/
def Quiet (s t : State) : Prop := SameFaultRegisters s t ∧ t.events = s.events

/-- The fault `k` is one that instruction `i` can signal from the state `s`. -/
inductive CanSignal (s : State) : Instr → FaultKind → Prop where
  | add (rd rs rt : Reg) : CanSignal s (.add rd rs rt) .overflow
  | addi (rt rs : Reg) (imm : Imm16) : CanSignal s (.addi rt rs imm) .overflow
  | sub (rd rs rt : Reg) : CanSignal s (.sub rd rs rt) .overflow
  | lh (rt rs : Reg) (imm : Imm16) : CanSignal s (.lh rt rs imm) (.alignment (effectiveAddress s rs imm) .load)
  | lw (rt rs : Reg) (imm : Imm16) : CanSignal s (.lw rt rs imm) (.alignment (effectiveAddress s rs imm) .load)
  | sw (rt rs : Reg) (imm : Imm16) : CanSignal s (.sw rt rs imm) (.alignment (effectiveAddress s rs imm) .store)

theorem quiet_setX (s : State) (r : Reg) (v : Word) : Quiet s (s.setX r v) := by simp [Quiet, SameFaultRegisters]

theorem quiet_ite_setX (s : State) (c : Prop) [Decidable c] (r : Reg) (v : Word) :
    Quiet s (if c then s.setX r v else s) := by
  rw [State.ite_setX]; exact quiet_setX s r _

theorem writeOrOverflow_records (r : Reg) (e : Int) (s : State) :
    Quiet s (writeOrOverflow r e s) ∨ RecordsFault s (writeOrOverflow r e s) .overflow := by
  unfold writeOrOverflow
  split
  · exact .inl (quiet_setX s r _)
  · exact .inr (recordsFault_signal s .overflow)

theorem loadFrom_records (n : Nat) (rt : Reg) (ea : Word) (value : Memory → Word → Word) (s : State) :
    Quiet s (loadFrom n rt ea value s) ∨ RecordsFault s (loadFrom n rt ea value s) (.alignment ea .load) := by
  by_cases ha : ea.toNat % n = 0
  · rw [loadFrom_of_aligned rt value s ha]
    exact .inl (quiet_setX s rt _)
  · rw [loadFrom_of_misaligned rt value s ha]
    exact .inr ((recordsFault_signal s _).setX rt _)

theorem storeWordAt_records (ea v : Word) (s : State) :
    Quiet s (storeWordAt ea v s) ∨ RecordsFault s (storeWordAt ea v s) (.alignment ea .store) := by
  by_cases ha : ea.toNat % 4 = 0
  · rw [storeWordAt, checkAligned_of_aligned .store s ha]
    exact .inl ⟨⟨rfl, rfl, rfl, rfl⟩, rfl⟩
  · exact .inr (recordsFault_storeWordAt v s ha)

/-- What an instruction records on the way from `s` to `t`: nothing, one fault it can signal, or a SYSCALL's event. -/
inductive Records (s : State) (i : Instr) (t : State) : Prop where
  | quiet (h : Quiet s t)
  | fault (k : FaultKind) (hk : CanSignal s i k) (hr : RecordsFault s t k)
  | syscall (hi : i = .syscall) (hf : SameFaultRegisters s t) (he : t.events = s.events ++ [.syscall s.pc])

theorem CanSignal.records {s t : State} {i : Instr} {k : FaultKind} (hk : CanSignal s i k)
    (h : Quiet s t ∨ RecordsFault s t k) : Records s i t :=
  h.elim .quiet (.fault k hk)

/-- Every ordinary instruction records one of these. -/
theorem exec_records {i : Instr} {s t : State} (hi : i.isTransfer = false) (h : exec i s = .next t) :
    Records s i t := by
  cases i with
  | jr | jal | bgtz => cases hi
  | add => cases h; exact (CanSignal.add ..).records (writeOrOverflow_records ..)
  | addi => cases h; exact (CanSignal.addi ..).records (writeOrOverflow_records ..)
  | sub => cases h; exact (CanSignal.sub ..).records (writeOrOverflow_records ..)
  | lh => cases h; exact (CanSignal.lh ..).records (loadFrom_records ..)
  | lw => cases h; exact (CanSignal.lw ..).records (loadFrom_records ..)
  | sw => cases h; exact (CanSignal.sw ..).records (storeWordAt_records ..)
  | syscall => cases h; exact .syscall rfl ⟨rfl, rfl, rfl, rfl⟩ rfl
  | movz | movn => cases h; exact .quiet (quiet_ite_setX ..)
  | _ => cases h; exact .quiet (quiet_setX ..)

/-- Settles O32: the handler is `emit`. -/
theorem syscallOnlyEmits : Obligations.SyscallOnlyEmits := fun _ => rfl

/-! ### What a step records (R207, R208) -/

theorem CanSignal.of_workerStart {s : State} {i : Instr} {k : FaultKind} (h : CanSignal (workerStart s) i k) :
    CanSignal s i k := by
  cases h with
  | add | addi | sub => constructor
  | lh | lw | sw => rw [workerStart_effectiveAddress]; constructor

/-- A completed step records what its worker records, with the worker's address. -/
theorem step_records {s t : State} (h : step s = .next t) :
    (SameFaultRegisters s t ∧ t.events = []) ∨
    (∃ i k, worker s = some i ∧ CanSignal s i k ∧ RecordsFault (workerStart s) t k) ∨
    (worker s = some .syscall ∧ SameFaultRegisters s t ∧ t.events = [.syscall (workerPc s)]) := by
  obtain ⟨u, hworker, -, -, -, hbad, hstatus, hcause, hepc, hevents, -⟩ := step_worker h
  have hfaults : SameFaultRegisters (workerStart s) u → SameFaultRegisters s t := fun hu => by
    simpa [SameFaultRegisters, hbad, hstatus, hcause, hepc] using hu
  rcases hworker with ⟨-, rfl⟩ | ⟨rs, -, rfl⟩ | ⟨i, hw, hi, hexec⟩
  · exact .inl ⟨hfaults ⟨rfl, rfl, rfl, rfl⟩, hevents⟩
  · exact .inl ⟨hfaults ⟨rfl, rfl, rfl, rfl⟩, hevents⟩
  · obtain ⟨hf, he⟩ | ⟨k, hk, hr⟩ | ⟨rfl, hf, he⟩ := exec_records hi hexec
    · exact .inl ⟨hfaults hf, hevents.trans he⟩
    · refine .inr (.inl ⟨i, k, hw, hk.of_workerStart, ?_⟩)
      simpa [RecordsFault, hbad, hstatus, hcause, hepc, hevents] using hr
    · exact .inr (.inr ⟨hw, hfaults hf, hevents.trans he⟩)

/-- Settles O35: of the three things a step can record, a fault is one, and it then is the only event. -/
theorem faultRegistersDescribeTheLastFault : Obligations.FaultRegistersDescribeTheLastFault := by
  intro s t h
  rcases step_records h with ⟨hf, he⟩ | ⟨i, k, -, -, hepc, hcause, hstatus, hbad, he⟩ | ⟨-, hf, he⟩
  · exact ⟨fun _ => hf, fun k pc hk => by simp [he] at hk⟩
  · refine ⟨fun hno => absurd (by simp [he]) (hno k (workerPc s)), fun k' pc hk => ?_⟩
    obtain ⟨rfl, rfl⟩ : k' = k ∧ pc = workerPc s := by simpa [he] using hk
    exact ⟨he, rfl, hepc, hcause, hstatus, hbad⟩
  · exact ⟨fun _ => hf, fun k pc hk => by simp [he] at hk⟩

/-- Settles O36: the event is the fault the worker can signal, or its SYSCALL event. -/
theorem eventsComeFromTheirInstructions : Obligations.EventsComeFromTheirInstructions := by
  intro s t e h hmem
  rcases step_records h with ⟨-, he⟩ | ⟨i, k, hw, hk, -, -, -, -, he⟩ | ⟨hw, -, he⟩
  · simp [he] at hmem
  · obtain rfl : e = .faultSignal k (workerPc s) := by simpa [he] using hmem
    cases hk with
    | add rd rs rt => exact .inr (.inl ⟨rfl, rd, rs, rt, 0, .inl hw⟩)
    | addi rt rs imm => exact .inr (.inl ⟨rfl, 0, rs, rt, imm, .inr (.inl hw)⟩)
    | sub rd rs rt => exact .inr (.inl ⟨rfl, rd, rs, rt, 0, .inr (.inr hw)⟩)
    | lh rt rs imm => exact .inr (.inr (.inl ⟨rt, rs, imm, rfl, .inl hw⟩))
    | lw rt rs imm => exact .inr (.inr (.inl ⟨rt, rs, imm, rfl, .inr hw⟩))
    | sw rt rs imm => exact .inr (.inr (.inr ⟨rt, rs, imm, rfl, hw⟩))
  · exact .inl ⟨by simpa [he] using hmem, hw⟩

end Sys2Proof.Machine
end

section
/-! What a step changes: registers and memory, by its worker (10_state.md, 20_memory.md section 3). -/

namespace Sys2Proof.Machine

/-- An ordinary instruction changes no general register but its destination (R23). -/
theorem exec_x_eq {i : Instr} {s t : State} {r : Reg} (hi : i.isTransfer = false) (h : exec i s = .next t)
    (hr : r ∉ registersWritten i) : t.x r = s.x r := by
  cases hdest : destination i with
  | some d =>
    obtain ⟨f, ⟨u, hu, hf⟩, hexec⟩ := exec_withDestination hdest s
    obtain ⟨v, hv⟩ := hf d
    have hrd : r ≠ d := by
      rintro rfl
      refine hr ?_
      cases i with
      | jal => cases hi
      | _ => simp only [registersWritten, hdest, Option.toList_some, List.mem_singleton]
    have ht := hexec d
    rw [withDestination_destination hdest, h, hv] at ht
    cases ht
    obtain ⟨hregs, -⟩ := frame_of_signalled hu
    rw [State.x_setX_ne _ _ _ _ hrd, hregs r]
  | none =>
    cases i with
    | jr | jal | bgtz => cases hi
    | sw => cases h; exact storeWordAt_x ..
    | syscall => cases h; exact State.emit_x ..
    | _ => cases hdest

/-- Settles O5: a step changes registers by its worker's effect and JAL's link alone. -/
theorem stepWritesOnlyNamedRegisters : Obligations.StepWritesOnlyNamedRegisters := by
  intro s t r h hcur hwork
  obtain ⟨u, hruns, -, -, -, -, -, -, -, -, hregs⟩ := step_worker h
  have hu : u.x r = s.x r := by
    rcases hruns with ⟨-, rfl⟩ | ⟨_, -, rfl⟩ | ⟨i, hw, hi, hexec⟩
    · exact workerStart_x s r
    · exact workerStart_x s r
    · rw [exec_x_eq hi hexec (hwork i hw), workerStart_x]
  rcases hregs with hregs | ⟨idx, hjal, hlink⟩
  · rw [State.x_congr hregs, hu]
  · have hr : r ≠ 31 := by simpa [registersWritten] using hcur _ hjal
    rw [hlink r hr, hu]

/-- Settles O9: memory is as the worker leaves it, and of the ordinary instructions SW alone writes it. -/
theorem stepStoresOnlyWhereSwPoints : Obligations.StepStoresOnlyWhereSwPoints := by
  intro s t w h
  obtain ⟨u, hruns, hmem, -⟩ := step_worker h
  rcases hruns with ⟨hw, rfl⟩ | ⟨rs, hw, rfl⟩ | ⟨i, hw, hi, hexec⟩
  · exact ⟨fun rt rs imm hsw => by simp [hw] at hsw, fun _ => hmem⟩
  · exact ⟨fun rt rs imm hsw => by simp [hw] at hsw, fun _ => hmem⟩
  · refine ⟨fun rt rs imm hsw => ?_, fun hsw => ?_⟩
    · obtain rfl : i = .sw rt rs imm := by simpa [hw] using hsw
      obtain ⟨-, hu⟩ := exec_sw_pc_mem hexec
      rw [workerStart_mem, workerStart_effectiveAddress, workerStart_x] at hu
      have ht := hmem.trans hu
      exact ⟨sameMemoryOutside_of_writeWord w ht, by rw [ht, readWord_writeWord _ _ w]⟩
    · rw [hmem, exec_mem_eq hexec (fun rt rs imm e => hsw rt rs imm (e ▸ hw)) ?_, workerStart_mem]
      cases i with
      | jal | bgtz => cases hi
      | _ => rfl

end Sys2Proof.Machine
end

section
/-! The invariant, and the host's operations (70_reset_and_hazards.md). -/

namespace Sys2Proof.Machine

/-- Settles O48: the handler keeps each part (`execWord_keeps`) from the state with an empty event list, and the advance
touches none. -/
theorem stepKeepsTheInvariant : Obligations.StepKeepsTheInvariant := by
  rintro s t ⟨hwf, hhi, hlo, hstatus, -⟩ h
  obtain ⟨-, u, hu, rfl⟩ := step_eq_next h
  obtain ⟨khi, klo, kstatus, kwf, kevents⟩ := execWord_keeps hu
  exact ⟨kwf hwf, khi.trans hhi, klo.trans hlo, kstatus.trans hstatus, kevents⟩

/-- Settles O47, by evaluation of the one state. -/
theorem invariantAtPowerOn : Obligations.InvariantAtPowerOn := by
  unfold Obligations.InvariantAtPowerOn
  decide

/-- Each of the host's three operations keeps the invariant. -/
theorem hostDo_keeps_inv {s t : State} {o : HostOp} (hs : Inv s) (h : hostDo o s = .next t) : Inv t := by
  cases o with
  | loadSegment bytes base =>
    obtain ⟨hwf, hrest⟩ := hs
    cases h
    exact ⟨writeBytes_wf base bytes hwf, hrest⟩
  | reset => cases h; exact hs
  | step => exact stepKeepsTheInvariant s t hs h

/-- Settles O49, by induction on the host's operations. -/
theorem everyReachableStateMeetsTheInvariant : Obligations.EveryReachableStateMeetsTheInvariant := by
  intro s h
  induction h with
  | powerOn => exact invariantAtPowerOn
  | host s t o _ hdo ih => exact hostDo_keeps_inv ih hdo

/-- The general registers after `reset()` (R231). -/
theorem x_of_regs_eq_resetRegs {s : State} (h : s.regs = resetRegs) (r : Reg) :
    s.x r = if r = 29 then Config.stackInit else 0 := by
  have hreset : ∀ r : Reg, State.reset.x r = if r = 29 then Config.stackInit else 0 := by decide
  rw [State.x_congr (s := State.reset) h, hreset]

/-- Settles O51: the fields of the power-on state, and its registers by `x_of_regs_eq_resetRegs`. -/
theorem powerOnState : Obligations.PowerOnState :=
  ⟨x_of_regs_eq_resetRegs rfl, rfl, rfl, rfl, rfl, rfl, fun _ => rfl, rfl⟩

/-- Settles O52: `reset()` sets registers and PC and leaves every other field. -/
theorem resetOperation : Obligations.ResetOperation := fun s =>
  ⟨s.resetOp, rfl, x_of_regs_eq_resetRegs rfl, rfl, ⟨rfl, rfl⟩, ⟨rfl, rfl, rfl, rfl⟩, rfl, rfl⟩

/-- Settles O4: the branches of `set` outside 1 to 31. -/
theorem registerWriteByIndex : Obligations.RegisterWriteByIndex := by
  refine fun s v => ⟨rfl, fun i hi => ?_⟩
  rw [State.set, dif_neg (by omega), if_neg (by omega)]

end Sys2Proof.Machine
end

section
/-! What programs cannot see (10_state.md sections 3, 5 and 7): no instruction reads HI, LO, a fault register or the event
list. -/

namespace Sys2Proof.Machine

/-- The state with everything a program cannot see at fixed values. The events stay: they are a step's output. -/
def State.forget (s : State) : State :=
  { s with hi := 0, lo := 0, badVAddr := 0, status := 0, cause := 0, epc := 0 }

section forget
variable (s : State)
@[simp] theorem State.forget_regs : s.forget.regs = s.regs := rfl
@[simp] theorem State.forget_pc : s.forget.pc = s.pc := rfl
@[simp] theorem State.forget_mem : s.forget.mem = s.mem := rfl
@[simp] theorem State.forget_x (r : Reg) : s.forget.x r = s.x r := State.x_congr s.forget_regs r
@[simp] theorem State.forget_effectiveAddress (rs : Reg) (imm : Imm16) :
    effectiveAddress s.forget rs imm = effectiveAddress s rs imm := by simp [effectiveAddress]
@[simp] theorem State.forget_setPc (v : Word) : (s.setPc v).forget = s.forget.setPc v := rfl
@[simp] theorem State.forget_setX (r : Reg) (v : Word) : (s.setX r v).forget = s.forget.setX r v := by
  unfold State.setX State.set
  split
  · rfl
  · split <;> rfl

/-- What `signal` records is forgotten, but for its event. -/
theorem State.forget_signal (k : FaultKind) : (s.forget.signal k).forget = (s.signal k).forget := rfl

theorem setX_forget (r : Reg) {v v' : Word} (h : v' = v) : (s.forget.setX r v').forget = (s.setX r v).forget := by
  rw [h, State.forget_setX, State.forget_setX]; rfl

theorem writeOrOverflow_forget (r : Reg) {e e' : Int} (h : e' = e) :
    (writeOrOverflow r e' s.forget).forget = (writeOrOverflow r e s).forget := by
  unfold writeOrOverflow
  rw [h]
  split
  · exact setX_forget s r rfl
  · exact s.forget_signal .overflow

theorem checkAligned_forget (n : Nat) (ea : Word) (c : Access) :
    (checkAligned n ea c s.forget).forget = (checkAligned n ea c s).forget := by
  unfold checkAligned
  split
  · rfl
  · exact s.forget_signal _

theorem loadFrom_forget (n : Nat) (r : Reg) (value : Memory → Word → Word) {ea ea' : Word} (h : ea' = ea) :
    (loadFrom n r ea' value s.forget).forget = (loadFrom n r ea value s).forget := by
  rw [h, loadFrom, State.forget_setX, checkAligned_forget, loadFrom, State.forget_setX, State.forget_mem]

theorem storeWordAt_forget {ea ea' v v' : Word} (h : ea' = ea) (hv : v' = v) :
    (storeWordAt ea' v' s.forget).forget = (storeWordAt ea v s).forget := by
  rw [h, hv]
  exact congrArg (fun t : State => { t with mem := writeWord s.mem ea v }) (checkAligned_forget s 4 ea .store)

theorem linkAndJump_forget (idx : Index26) : (linkAndJump idx s).forget = linkAndJump idx s.forget := by
  simp [linkAndJump]

theorem branchIfTaken_forget (rs : Reg) (imm : Imm16) :
    (branchIfTaken rs imm s).forget = branchIfTaken rs imm s.forget := by
  unfold branchIfTaken
  rw [State.forget_x]
  split <;> rfl
end forget

/-- An outcome as a program sees it. -/
def seen (o : Result) : Result := thenNext o State.forget

theorem seen_next {t t' : State} (h : t'.forget = t.forget) : seen (.next t') = seen (.next t) :=
  congrArg Host.Outcome.next h

/-- What follows a handler can follow on the seen outcome. -/
theorem seen_thenNext (o : Result) {f : State → State} (h : ∀ t, (f t).forget = f t.forget) :
    seen (thenNext o f) = thenNext (seen o) f := by
  cases o with
  | next t => exact congrArg Host.Outcome.next (h t)
  | fault | refused => rfl

/-- An ordinary instruction does the same to what a program sees, whatever the rest holds. -/
theorem seen_exec_ordinary {i : Instr} (hi : i.isTransfer = false) (s : State) :
    seen (exec i s.forget) = seen (exec i s) := by
  cases i with
  | jr | jal | bgtz => cases hi
  | add | addi | sub => exact seen_next (writeOrOverflow_forget s _ (by simp))
  | lh | lw => exact seen_next (loadFrom_forget s _ _ _ (by simp))
  | sw => exact seen_next (storeWordAt_forget s (by simp) (by simp))
  | syscall => rfl
  | movz | movn =>
    refine seen_next ?_
    rw [State.ite_setX, State.ite_setX]
    exact setX_forget s _ (by simp)
  | _ => exact seen_next (setX_forget s _ (by simp))

theorem seen_runSlot (s : State) : seen (runSlot s.forget) = seen (runSlot s) := by
  unfold runSlot
  rw [show slotWord s.forget = slotWord s from rfl, show enterSlot s.forget = (enterSlot s).forget from rfl]
  cases decode (slotWord s) with
  | error => rfl
  | ok i =>
    cases hi : i.isTransfer with
    | true => simp only [execOrdinary_transfer i _ hi]
    | false =>
      simp only [execOrdinary_eq_exec _ hi]
      exact seen_exec_ordinary hi (enterSlot s)

theorem seen_exec (i : Instr) (s : State) : seen (exec i s.forget) = seen (exec i s) := by
  cases hi : i.isTransfer with
  | false => exact seen_exec_ordinary hi s
  | true =>
    cases i with
    | jr rs => exact seen_next (by rw [State.forget_setPc, State.forget_setPc, State.forget_x]; rfl)
    | jal idx =>
      simp only [exec, execJal]
      rw [seen_thenNext _ fun t => linkAndJump_forget t idx, seen_thenNext _ fun t => linkAndJump_forget t idx,
        seen_runSlot]
    | bgtz rs imm =>
      simp only [exec, execBgtz]
      rw [seen_thenNext _ fun t => branchIfTaken_forget t rs imm, seen_thenNext _ fun t => branchIfTaken_forget t rs imm,
        seen_runSlot]
    | _ => cases hi

/-- A step does the same to what a program sees, whatever the rest holds; it empties the events itself. -/
theorem seen_step (s : State) : seen (step s.beginStep.forget) = seen (step s) := by
  unfold step
  rw [show s.beginStep.forget.pcAligned = s.pcAligned from rfl]
  split
  · rw [seen_thenNext _ fun t => (rfl : t.advance.forget = t.forget.advance),
      seen_thenNext _ fun t => (rfl : t.advance.forget = t.forget.advance)]
    refine congrArg (thenNext · State.advance) ?_
    unfold execWord
    rw [show s.beginStep.forget.fetchAt s.beginStep.forget.pc = s.fetchAt s.pc from rfl]
    cases decode (s.fetchAt s.pc) with
    | error => rfl
    | ok i => exact seen_exec i s.beginStep
  · rfl

theorem forget_beginStep_congr {s s' : State} (h : SameProgramView s s') :
    s'.beginStep.forget = s.beginStep.forget := by
  obtain ⟨hregs, hpc, hmem⟩ := h
  simp only [State.forget, State.beginStep, hregs, hpc, hmem]

/-- Settles O50: the two steps are one step of the one state with the record forgotten. -/
theorem faultRecordIsInvisibleToPrograms : Obligations.FaultRecordIsInvisibleToPrograms := by
  intro s s' h
  have hseen : seen (step s') = seen (step s) := by
    rw [← seen_step s', ← seen_step s, forget_beginStep_congr h]
  refine ⟨fun t ht => ?_, fun r hr => ?_⟩
  · rw [ht] at hseen
    obtain ⟨t', ht', hforget⟩ := thenNext_eq_next hseen
    exact ⟨t', ht', ⟨(congrArg State.regs hforget :), (congrArg State.pc hforget :), (congrArg State.mem hforget :)⟩,
      (congrArg State.events hforget :)⟩
  · rw [hr] at hseen
    cases hs' : step s' with
    | next | fault => rw [hs'] at hseen; cases hseen
    | refused => rw [hs'] at hseen; exact hseen

end Sys2Proof.Machine
end

section
/-! Control transfers and the outcome of a step (45_control_transfer.md, 40_step_cycle.md). -/

namespace Sys2Proof.Machine

/-! ### The handlers (R166, R168, R170) -/

/-- Settles O38: the handler is one write of PC. -/
theorem jumpRegister : Obligations.JumpRegister := fun s rs =>
  ⟨s.setPc (s.x rs - 4), rfl, rfl, s.setPc_x _, ⟨rfl, rfl⟩, ⟨rfl, rfl, rfl, rfl⟩, fun _ => rfl, rfl⟩

/-- A slot that runs leaves PC at its own address (D9). -/
theorem SlotRuns.pc_eq {s u : State} (h : SlotRuns s u) : u.pc = s.pc + 4 := by
  rcases h with ⟨i, -, hi, hexec⟩ | ⟨-, rfl⟩
  · obtain ⟨t, ht, -, heffect⟩ := exec_ordinary i { s with pc := s.pc + 4 } hi
    rw [ht] at hexec
    cases hexec
    exact heffect.pc_eq
  · rfl

/-- JAL's target in the words of R168. -/
theorem jalTarget_eq (pc : Word) (idx : Index26) :
    jalTarget pc idx = (pc &&& 0xF0000000#32) ||| (idx.setWidth 32 <<< 2) := by
  rw [← indexShifted_eq_shift]; rfl

/-- What a taken BGTZ leaves in PC, counted from its own address `a` (R170, D10). -/
theorem branchPc_eq (a : Word) (imm : Imm16) : branchPc (a + 4) imm = a + (imm.signExtend 32 <<< 2) - 4 := by
  rw [← branchOffset_eq_shift, branchPc, Config.branchBase, Config.branchBaseOffset]
  bv_omega

theorem taken_iff (v : Word) : taken v = true ↔ 0 < v.toInt := by simp [taken, takenUnder, Config.bgtzCond]

/-- JAL's link is one register write (R168). -/
theorem linkAndJump_registerReceives (idx : Index26) (u : State) :
    RegisterReceives u (linkAndJump idx u) 31 (u.pc + 4) :=
  ⟨by simp [linkAndJump, State.x_setX], fun r hr => by rw [linkAndJump, State.setPc_x, State.x_setX_ne _ _ _ _ hr]⟩

/-- Settles O39: the slot runs, and then `linkAndJump`. -/
theorem jumpAndLink : Obligations.JumpAndLink := by
  intro s idx hslot
  obtain ⟨u, hruns, hrun, -⟩ := runSlot_runs s hslot
  have hlink := linkAndJump_registerReceives idx u
  rw [hruns.pc_eq, BitVec.add_assoc] at hlink
  refine ⟨u, linkAndJump idx u, hruns, by rw [exec, execJal, hrun, thenNext_next], hlink, ?_, by simp [SameConstants],
    by simp [SameFaultRegisters, linkAndJump], fun _ => by rw [linkAndJump_mem], linkAndJump_events u idx⟩
  rw [linkAndJump_pc, hruns.pc_eq, jalTarget_eq]; rfl

/-- BGTZ changes nothing but PC once its slot has run (R170). -/
theorem branchIfTaken_onlyPc (rs : Reg) (imm : Imm16) (u : State) :
    OnlyPc u (branchIfTaken rs imm u) (if 0 < (u.x rs).toInt then branchPc u.pc imm else u.pc) := by
  simp only [branchIfTaken, taken_iff]
  split
  · exact ⟨rfl, u.setPc_x _, ⟨rfl, rfl⟩, ⟨rfl, rfl, rfl, rfl⟩, fun _ => rfl, rfl⟩
  · exact ⟨rfl, fun _ => rfl, ⟨rfl, rfl⟩, ⟨rfl, rfl, rfl, rfl⟩, fun _ => rfl, rfl⟩

/-- Settles O40: the slot runs, and then `branchIfTaken`. -/
theorem branchOnGreaterThanZero : Obligations.BranchOnGreaterThanZero := by
  intro s rs imm hslot
  obtain ⟨u, hruns, hrun, -⟩ := runSlot_runs s hslot
  have hexec : exec (.bgtz rs imm) s = .next (branchIfTaken rs imm u) := by rw [exec, execBgtz, hrun, thenNext_next]
  have hpc := branchIfTaken_onlyPc rs imm u
  rw [hruns.pc_eq, branchPc_eq] at hpc
  refine ⟨u, hruns, fun hgt => ⟨_, hexec, ?_⟩, fun hle => ⟨_, hexec, ?_⟩⟩
  · rwa [if_pos hgt] at hpc
  · rwa [if_neg (Int.not_lt.2 hle)] at hpc

/-- Settles O41: the refusal of the slot is that of the transfer, before any condition is tested. -/
theorem transferInDelaySlotIsRefused : Obligations.TransferInDelaySlotIsRefused := by
  intro s i hi hslot
  obtain ⟨hno, -⟩ | ⟨-, hrun⟩ := runSlot_cases s
  · rw [hslot] at hno; cases hno
  · cases i with
    | jal => rw [exec, execJal, hrun, thenNext_refused]
    | bgtz => rw [exec, execBgtz, hrun, thenNext_refused]
    | _ => cases hi

/-! ### The step of a transfer (R117, R119) -/

section transfers
variable {s t : State}

theorem step_eq_next_of_current {i : Instr} (h : step s = .next t) (hc : current s = some i) :
    ∃ u, exec i s.beginStep = .next u ∧ t = u.advance := by
  obtain ⟨-, u, hu, ht⟩ := step_eq_next h
  exact ⟨u, by rwa [execWord_ok (current_eq_some hc)] at hu, ht⟩

theorem step_jal {idx : Index26} (h : step s = .next t) (hc : current s = some (.jal idx)) :
    ∃ u, SlotRuns s.beginStep u ∧ t = (linkAndJump idx u).advance := by
  obtain ⟨v, hv, rfl⟩ := step_eq_next_of_current h hc
  obtain ⟨u, hu, rfl⟩ := thenNext_eq_next hv
  exact ⟨u, slotRuns_of_runSlot hu, rfl⟩

theorem step_bgtz {rs : Reg} {imm : Imm16} (h : step s = .next t) (hc : current s = some (.bgtz rs imm)) :
    ∃ u, SlotRuns s.beginStep u ∧ t = (branchIfTaken rs imm u).advance := by
  obtain ⟨v, hv, rfl⟩ := step_eq_next_of_current h hc
  obtain ⟨u, hu, rfl⟩ := thenNext_eq_next hv
  exact ⟨u, slotRuns_of_runSlot hu, rfl⟩

theorem linkAndJump_advance_pc {u : State} (idx : Index26) (h : SlotRuns s.beginStep u) :
    (linkAndJump idx u).advance.pc = jalTarget (s.pc + 4) idx := by
  rw [State.advance_pc, linkAndJump_pc, h.pc_eq, BitVec.sub_add_cancel, State.beginStep_pc]

theorem branchIfTaken_advance_pc {u : State} (rs : Reg) (imm : Imm16) (h : SlotRuns s.beginStep u) :
    (branchIfTaken rs imm u).advance.pc =
      if 0 < (u.x rs).toInt then s.pc + (imm.signExtend 32 <<< 2) else s.pc + 8 := by
  obtain ⟨hpc, -⟩ := branchIfTaken_onlyPc rs imm u
  rw [State.advance_pc, hpc, h.pc_eq, branchPc_eq, State.beginStep_pc]
  split
  · rw [BitVec.sub_add_cancel]
  · rw [BitVec.add_assoc]; rfl

end transfers

/-- Settles O42, by the step of each kind of instruction. -/
theorem nextPcOfEveryStep : Obligations.NextPcOfEveryStep := by
  intro s t h
  refine ⟨fun hc => ?none, fun i hc hi => ?ordinary, fun rs hc => ?jr, fun idx hc => ?jal, fun rs imm hc => ?bgtz⟩
  case none =>
    obtain ⟨-, u, hu, rfl⟩ := step_eq_next h
    obtain ⟨e, he⟩ := current_eq_none hc
    rw [execWord_error he] at hu
    cases hu; rfl
  case ordinary =>
    obtain ⟨u, hu, rfl⟩ := step_eq_next_of_current h hc
    obtain ⟨v, hv, -, heffect⟩ := exec_ordinary i s.beginStep hi
    rw [hv] at hu
    cases hu
    rw [State.advance_pc, heffect.pc_eq, State.beginStep_pc]
  case jr =>
    obtain ⟨u, hu, rfl⟩ := step_eq_next_of_current h hc
    cases hu
    rw [State.advance_pc, State.setPc_pc, BitVec.sub_add_cancel, State.beginStep_x]
  case jal =>
    obtain ⟨u, hruns, rfl⟩ := step_jal h hc
    rw [linkAndJump_advance_pc idx hruns, jalTarget_eq]; rfl
  case bgtz =>
    obtain ⟨u, hruns, rfl⟩ := step_bgtz h hc
    exact ⟨u, hruns, branchIfTaken_advance_pc rs imm hruns⟩

/-- A slot of ADDIU leaves its sum in its register, and nothing in register 0. -/
theorem SlotRuns.addiu {s u : State} {r q : Reg} {d : Imm16} (h : SlotRuns s u)
    (hslot : inSlot s = some (.addiu r q d)) :
    u.x r = if r = 0 then 0 else s.x q + d.signExtend 32 := by
  rcases h with ⟨i, hi, -, hexec⟩ | ⟨hnone, -⟩
  · obtain rfl : i = .addiu r q d := by simpa [hslot] using hi.symm
    cases hexec
    have hx : State.x { s with pc := s.pc + 4 } q = s.x q := s.setPc_x _ q
    rw [State.x_setX, if_pos rfl, hx]
    rfl
  · rw [hslot] at hnone; cases hnone

/-- Settles O43: BGTZ and JAL act on the state their slot leaves, in which ADDIU's register holds its sum. -/
theorem slotActsBeforeItsTransfer : Obligations.SlotActsBeforeItsTransfer := by
  intro s t r q d imm idx hslot h v
  refine ⟨fun hc => ?bgtz, fun hc => ?jal⟩
  case bgtz =>
    obtain ⟨u, hruns, rfl⟩ := step_bgtz h hc
    have hr : u.x r = v := hruns.addiu hslot
    obtain ⟨-, hregs, -⟩ := branchIfTaken_onlyPc r imm u
    refine ⟨by rw [State.advance_x, hregs, hr], ?_⟩
    rw [branchIfTaken_advance_pc r imm hruns, hr]
  case jal =>
    obtain ⟨u, hruns, rfl⟩ := step_jal h hc
    obtain ⟨hlink, hothers⟩ := linkAndJump_registerReceives idx u
    refine ⟨?_, fun hr31 => ?_⟩
    · rw [State.advance_x, hlink, if_neg (by decide), hruns.pc_eq, State.beginStep_pc, BitVec.add_assoc]; rfl
    · rw [State.advance_x, hothers r hr31]
      exact hruns.addiu hslot

/-! ### The outcome of a step (40_step_cycle.md section 3) -/

theorem step_of_misaligned {s : State} (h : s.pc.toNat % 4 ≠ 0) : step s = .refused .misalignedPC := by
  rw [step, if_neg (by simpa [State.pcAligned] using h)]

theorem step_of_transferInSlot {s : State} (ha : s.pc.toNat % 4 = 0) (h : TransferInSlot s) :
    step s = .refused .transferInDelaySlot := by
  obtain ⟨hdelayed, hslot⟩ := h
  cases hc : current s with
  | none => rw [hc] at hdelayed; cases hdelayed
  | some i =>
    rw [hc] at hdelayed
    rw [step_of_decode ha (current_eq_some hc), transferInDelaySlotIsRefused s.beginStep i hdelayed hslot,
      thenNext_refused]

/-- A step the spec gives an outcome completes. -/
theorem step_of_ready {s : State} (h : Ready s) : ∃ t, step s = .next t := by
  obtain ⟨ha, hslot⟩ := h
  cases hc : current s with
  | none =>
    obtain ⟨e, he⟩ := current_eq_none hc
    exact ⟨_, step_of_error ha he⟩
  | some i =>
    obtain ⟨t, ht, -⟩ := exec_completes (i := i) (s := s.beginStep) fun hi =>
      Bool.eq_false_iff.2 fun hin => hslot ⟨by rw [hc]; exact hi, hin⟩
    exact ⟨t.advance, by rw [step_of_decode ha (current_eq_some hc), ht, thenNext_next]⟩

/-- Settles O45: a step that is not ready is one of the two refused, and a refusal is no next state. -/
theorem everyStepCompletesOrIsRefused : Obligations.EveryStepCompletesOrIsRefused := by
  refine fun s => ⟨⟨step_of_ready, fun ⟨t, ht⟩ => ⟨(step_eq_next ht).1, fun hslot => ?_⟩⟩, step_of_misaligned,
    step_of_transferInSlot⟩
  rw [step_of_transferInSlot (step_eq_next ht).1 hslot] at ht
  cases ht

theorem shiftLeft_two_toNat_mod (v : Word) : (v <<< 2).toNat % 4 = 0 := by
  rw [BitVec.toNat_shiftLeft, Nat.shiftLeft_eq]; omega

/-- Settles O46: from an aligned PC, every target but JR's is a multiple of 4. -/
theorem onlyJumpRegisterMisalignsPc : Obligations.OnlyJumpRegisterMisalignsPc := by
  intro s t h hjr
  obtain ⟨ha, -⟩ := step_eq_next h
  have hnext : (s.pc + 4).toNat % 4 = 0 := by bv_omega
  obtain ⟨hnone, hordinary, -, -, hbgtz⟩ := nextPcOfEveryStep s t h
  cases hc : current s with
  | none => rw [hnone hc]; exact hnext
  | some i =>
    cases i with
    | jr rs => exact absurd hc (hjr rs)
    | jal idx =>
      obtain ⟨u, hruns, rfl⟩ := step_jal h hc
      obtain ⟨-, hmod, -⟩ := jalTargetJoinsRegionAndIndex (s.pc + 4) idx
      rw [linkAndJump_advance_pc idx hruns]
      exact hmod
    | bgtz rs imm =>
      obtain ⟨u, -, hpc⟩ := hbgtz rs imm hc
      have hshift := shiftLeft_two_toNat_mod (imm.signExtend 32)
      rw [hpc]
      split
      · rw [BitVec.toNat_add]; omega
      · bv_omega
    | _ => rw [hordinary _ hc rfl]; exact hnext

end Sys2Proof.Machine
end
